-- ==== Sys2Proof/Word.lean ====
section
/-! DEFINITION. The machine's words: bytes, the 9-bit program counter, register indices. -/

namespace Sys2Proof

/-- An unsigned 8-bit value: a register, a memory cell, an operand byte (R8, R9, R21, R40). -/
abbrev Byte := BitVec 8

/-- A program-counter value, 9 bits wide; its legal values are 0..256 (R8 `PC_WIDTH`, R25). -/
abbrev Pc := BitVec 9

/-- The index of one of the eight registers (R8 `NREGS`, R21). -/
abbrev Reg := Fin 8

end Sys2Proof
end

