-- ==== Sys2Proof/Syntax.lean ====
section
/-! DEFINITION. The instruction set: thirteen mnemonics and the instructions with their operand bytes. -/

namespace Sys2Proof

/-- The thirteen instructions of the handler table (R2). -/
inductive Mnemonic where
  | ldi | prn | add | mul | cmp | push | pop | jmp | jeq | jne | call | ret | hlt
  deriving DecidableEq, Repr

/-- One decoded instruction. Operands are the whole operand bytes, as R62 and R63 give them: a
register operand is not masked, so a byte 8..255 can stand here and is refused by `Instr.wf` and
faulted on by the instruction's meaning (R23; assumption log 18). -/
inductive Instr where
  /-- LDI rA, imm8 (R100) -/
  | ldi (rA imm8 : Byte)
  /-- PRN rA (R102) -/
  | prn (rA : Byte)
  /-- ADD rA, rB (R110) -/
  | add (rA rB : Byte)
  /-- MUL rA, rB (R112) -/
  | mul (rA rB : Byte)
  /-- CMP rA, rB (R114) -/
  | cmp (rA rB : Byte)
  /-- PUSH rA (R121) -/
  | push (rA : Byte)
  /-- POP rA (R122) -/
  | pop (rA : Byte)
  /-- JMP rA (R130) -/
  | jmp (rA : Byte)
  /-- JEQ rA (R132) -/
  | jeq (rA : Byte)
  /-- JNE rA (R134) -/
  | jne (rA : Byte)
  /-- CALL rA (R141) -/
  | call (rA : Byte)
  /-- RET (R142) -/
  | ret
  /-- HLT (R150) -/
  | hlt
  deriving DecidableEq, Repr

/-- The instruction's mnemonic (R64). -/
def Instr.mnemonic : Instr → Mnemonic
  | .ldi _ _ => .ldi
  | .prn _ => .prn
  | .add _ _ => .add
  | .mul _ _ => .mul
  | .cmp _ _ => .cmp
  | .push _ => .push
  | .pop _ => .pop
  | .jmp _ => .jmp
  | .jeq _ => .jeq
  | .jne _ => .jne
  | .call _ => .call
  | .ret => .ret
  | .hlt => .hlt

/-- The register operand bytes, in operand order rA then rB (R61, R23). -/
def Instr.registerOperands : Instr → List Byte
  | .ldi rA _ => [rA]
  | .prn rA => [rA]
  | .add rA rB => [rA, rB]
  | .mul rA rB => [rA, rB]
  | .cmp rA rB => [rA, rB]
  | .push rA => [rA]
  | .pop rA => [rA]
  | .jmp rA => [rA]
  | .jeq rA => [rA]
  | .jne rA => [rA]
  | .call rA => [rA]
  | .ret => []
  | .hlt => []

end Sys2Proof
end

