-- ==== Sys2Proof/Config.lean ====
section
/-! DEFINITION. The configuration: the opcode map and the fixed parameters of R8. The values of the
default opcode map are in Decode.lean. -/

namespace Sys2Proof

/-- What a configuration chooses: the opcode map `opcodeOf` from mnemonic to opcode byte (R8, R64,
decision D2). Everything else is fixed for this hardware. -/
structure Config where
  opcodeOf : Mnemonic → Byte

/-- What R64 asks of every configuration: the map is injective and the three source values stand. -/
structure Config.Legal (c : Config) : Prop where
  injective : ∀ m n : Mnemonic, c.opcodeOf m = c.opcodeOf n → m = n
  ldi : c.opcodeOf .ldi = 0x82
  prn : c.opcodeOf .prn = 0x47
  hlt : c.opcodeOf .hlt = 0x01

/-- `MEM_SIZE`: the number of memory cells, addresses 0..255 (R8, R40). -/
abbrev memSize : Nat := 256

/-- `SP_INDEX`: register 7 is the stack pointer (R8, R22). -/
def spIndex : Reg := 7

/-- `SP_RESET`: the stack pointer's value at reset (R8, R34). -/
def spReset : Byte := 0xF4

/-- `PC_RESET`: the program counter's value at reset (R8, R34). -/
def pcReset : Pc := 0

/-- `LOAD_BASE`: where the loader puts the program's first byte (R8, R182). -/
def loadBase : Nat := 0

end Sys2Proof
end

