-- ==== Sys2Proof/Machine/State.lean ====
section
/-! DEFINITION. The machine's state as plain data, its reset value, and the reasons a step can stop. -/

namespace Sys2Proof.Machine

/-- The run state (R28). -/
inductive RunState where
  | running | halted | faulted
  deriving DecidableEq, Repr

/-- The fault causes (R30). -/
inductive FaultCause where
  /-- no fault -/
  | none
  /-- the fetched byte is not an opcode (R162) -/
  | unknownOpcode
  /-- an access outside 0..255 (R165) -/
  | memoryOutOfRange
  /-- kept for the source's taxonomy; raised by nothing (R167, assumption log 22) -/
  | unsupportedArithmeticOperation
  /-- a register operand byte 8..255 (R166) -/
  | invalidRegisterIndex
  deriving DecidableEq, Repr

/-- The numeric code of a cause (R30, decision D5). -/
def FaultCause.code : FaultCause → Nat
  | .none => 0
  | .unknownOpcode => 1
  | .memoryOutOfRange => 2
  | .unsupportedArithmeticOperation => 3
  | .invalidRegisterIndex => 4

/-- The fault record (R20, R31). -/
structure FaultRecord where
  cause : FaultCause
  /-- the address of the faulting instruction's opcode byte -/
  fpc : Pc
  /-- the opcode byte, the out-of-range address, or the operand byte -/
  info : Int
  deriving DecidableEq, Repr

/-- The three condition flags Equal, Less, Greater, three separate bits (R20, R26). -/
structure Flags where
  e : Bool
  l : Bool
  g : Bool
  deriving DecidableEq, Repr

/-- Memory as the cells that differ from what an unlisted address reads as, with rising addresses
(R40; the form is `Memory.wf` of Machine/Ops.lean, assumption log 16). -/
structure Memory where
  cells : List Host.Cell
  deriving DecidableEq, Repr

/-- What an instruction or a fetch raises: the cause and the info it records (R10 `raise`). -/
structure Raised where
  cause : FaultCause
  info : Int
  deriving DecidableEq, Repr

/-- The complete architectural state (R20), and the values the output port has emitted (R101). -/
structure State where
  /-- 256 cells of 8 bits (R40) -/
  mem : Memory
  /-- R0..R7; `x[7]` is SP (R21, R22) -/
  x : Vector Byte 8
  /-- the program counter, 0..256 (R24, R25) -/
  pc : Pc
  /-- E, L, G (R26) -/
  flags : Flags
  /-- Running, Halted or Faulted (R28) -/
  run : RunState
  /-- the fault record (R31) -/
  fault : FaultRecord
  /-- the output port's values, oldest first (R101; assumption log 1) -/
  out : List Byte
  deriving DecidableEq, Repr

/-- The flag state `None`: no compare has happened (R27). -/
def Flags.none : Flags := ⟨false, false, false⟩

/-- The fault record while the run state is not Faulted (R31). -/
def FaultRecord.none : FaultRecord := ⟨.none, 0, 0⟩

/-- Why no step exists. Both are raised by `step` alone and both are safe: the spec says that in
Halted and Faulted no step is enabled (R28, R151, R163(c)). A fault of the PROGRAM is not one of
these: it is a next state whose run state is Faulted (assumption log 3). -/
inductive Fault where
  /-- the run state is Halted: no step is enabled (R151). Safe. -/
  | halted
  /-- the run state is Faulted: no step is enabled (R163, R170). Safe. -/
  | faulted
  deriving DecidableEq, Repr

/-- Instructions without a meaning. -/
inductive Refusal where
  /-- Answered by a refused arm of `exec`, for an instruction that has no meaning yet. Safe. No arm of
  this model answers it. -/
  | notModelled (mnemonic : String)
  deriving DecidableEq, Repr

/-- What a meaning and a step answer. -/
abbrev Outcome := Host.Outcome State Fault Refusal

/-- The machine right after reset with nothing loaded (R34, R180). Memory lists nothing, so every cell
reads 0. The zeros of x[0]..x[6], of the flags and of the fault record are the spec's own decisions
D11, D12 and D5 (assumption logs 4, 5, 6). -/
def State.reset : State where
  mem := ⟨[]⟩
  x := #v[0, 0, 0, 0, 0, 0, 0, spReset]
  pc := pcReset
  flags := Flags.none
  run := .running
  fault := FaultRecord.none
  out := []

end Sys2Proof.Machine
end

