-- ==== Sys2Proof/Machine/Flags.lean ====
section
/-! DEFINITION. The one flag computation of the CORE: compare (R113, R114). -/

namespace Sys2Proof.Machine

/-- The flags CMP leaves: Equal, Less or Greater by unsigned comparison, the other two cleared (R114). -/
def compareFlags (a b : Byte) : Flags :=
  if a = b then ⟨true, false, false⟩
  else if a.toNat < b.toNat then ⟨false, true, false⟩
  else ⟨false, false, true⟩

end Sys2Proof.Machine
end

