-- ==== Sys2Proof/WellFormed.lean ====
section
/-! DEFINITION. Which instructions are well formed: every register operand byte names a register. -/

namespace Sys2Proof

/-- An operand byte names a register when it is 0..7 (R23, R62). -/
def registerByteOk (b : Byte) : Bool := b.toNat < 8

/-- An instruction is well formed when every register operand byte is 0..7 (R23). The immediate of
LDI is any byte (R63). An instruction that is not well formed still executes: it faults with
InvalidRegisterIndex. -/
def Instr.wf (i : Instr) : Bool := i.registerOperands.all registerByteOk

end Sys2Proof
end

