-- ==== Sys2Proof/Decode.lean ====
section
/-! DEFINITION. The opcode map with its default values, the length table, the decoder, the encoder,
and the assembler spelling. -/

namespace Sys2Proof

/-- The default opcode map of R64. The values of LDI, PRN and HLT are the source's; the other ten are
the spec's default (PRESUMED by the spec itself, decision D2; assumption log 2). -/
def defaultOpcode : Mnemonic → Byte
  | .ldi => 0b10000010
  | .prn => 0b01000111
  | .add => 0b10100000
  | .mul => 0b10100010
  | .cmp => 0b10100111
  | .push => 0b01000101
  | .pop => 0b01000110
  | .jmp => 0b01010100
  | .jeq => 0b01010101
  | .jne => 0b01010110
  | .call => 0b01010000
  | .ret => 0b00010001
  | .hlt => 0b00000001

/-- The configuration this model runs: the spec's default (R64). -/
def defaultConfig : Config := ⟨defaultOpcode⟩

/-- The fixed length of each instruction in bytes (R64 length column, the normative source by R65). -/
def Mnemonic.length : Mnemonic → Nat
  | .ldi => 3
  | .prn => 2
  | .add => 3
  | .mul => 3
  | .cmp => 3
  | .push => 2
  | .pop => 2
  | .jmp => 2
  | .jeq => 2
  | .jne => 2
  | .call => 2
  | .ret => 1
  | .hlt => 1

/-- Every mnemonic once, in the order of R64's table. -/
def allMnemonics : List Mnemonic :=
  [.ldi, .prn, .add, .mul, .cmp, .push, .pop, .jmp, .jeq, .jne, .call, .ret, .hlt]

/-- The mnemonic an opcode byte selects, or none when no mapping exists (R66, R68). -/
def mnemonicOf (c : Config) (op : Byte) : Option Mnemonic :=
  allMnemonics.find? (fun m => c.opcodeOf m == op)

/-- Why a string of bytes is no instruction. -/
inductive DecodeError where
  /-- there is no byte to read an opcode from -/
  | noOpcode
  /-- the first byte is not an opcode of the map (R66) -/
  | unknownOpcode (op : Byte)
  /-- the opcode is legal and operand byte `k` (1 or 2) is not there (R71) -/
  | missingOperand (k : Nat)
  deriving DecidableEq, Repr

/-- What the decoder answers: the instruction and the bytes after it, or the reason there is none. -/
abbrev DecodeResult := Except DecodeError (Instr × List Byte)

/-- Operands of format R: one byte at pc+1 (R61). -/
def decodeOneOperand (f : Byte → Instr) : List Byte → DecodeResult
  | [] => .error (.missingOperand 1)
  | b1 :: rest => .ok (f b1, rest)

/-- Operands of formats RR and RI: one byte at pc+1, one at pc+2 (R61; the order is decision D3,
assumption log 14). -/
def decodeTwoOperands (f : Byte → Byte → Instr) : List Byte → DecodeResult
  | [] => .error (.missingOperand 1)
  | [_] => .error (.missingOperand 2)
  | b1 :: b2 :: rest => .ok (f b1 b2, rest)

/-- The operand bytes of each mnemonic's format (R61). -/
def decodeOperands : Mnemonic → List Byte → DecodeResult
  | .ldi, bs => decodeTwoOperands .ldi bs
  | .prn, bs => decodeOneOperand .prn bs
  | .add, bs => decodeTwoOperands .add bs
  | .mul, bs => decodeTwoOperands .mul bs
  | .cmp, bs => decodeTwoOperands .cmp bs
  | .push, bs => decodeOneOperand .push bs
  | .pop, bs => decodeOneOperand .pop bs
  | .jmp, bs => decodeOneOperand .jmp bs
  | .jeq, bs => decodeOneOperand .jeq bs
  | .jne, bs => decodeOneOperand .jne bs
  | .call, bs => decodeOneOperand .call bs
  | .ret, bs => .ok (.ret, bs)
  | .hlt, bs => .ok (.hlt, bs)

/-- The decoder, total on any bytes, for any opcode map: the first byte selects the mnemonic (R67,
R68), its format says which operand bytes follow (R60, R61). Register bytes are kept whole (R62). -/
def decodeWith (c : Config) : List Byte → DecodeResult
  | [] => .error .noOpcode
  | op :: rest =>
    match mnemonicOf c op with
    | none => .error (.unknownOpcode op)
    | some m => decodeOperands m rest

/-- The decoder with the default opcode map. -/
def decode (bs : List Byte) : DecodeResult := decodeWith defaultConfig bs

/-- The operand bytes of an instruction, in the order they are stored (R61). -/
def Instr.operandBytes : Instr → List Byte
  | .ldi rA imm8 => [rA, imm8]
  | .prn rA => [rA]
  | .add rA rB => [rA, rB]
  | .mul rA rB => [rA, rB]
  | .cmp rA rB => [rA, rB]
  | .push rA => [rA]
  | .pop rA => [rA]
  | .jmp rA => [rA]
  | .jeq rA => [rA]
  | .jne rA => [rA]
  | .call rA => [rA]
  | .ret => []
  | .hlt => []

/-- The encoder for any opcode map: the opcode byte first, then the operand bytes (R60, R61). -/
def encodeWith (c : Config) (i : Instr) : List Byte := c.opcodeOf i.mnemonic :: i.operandBytes

/-- The encoder with the default opcode map. -/
def encode (i : Instr) : List Byte := encodeWith defaultConfig i

/-- The mnemonic as the spec writes it (R2). -/
def Mnemonic.name : Mnemonic → String
  | .ldi => "LDI"
  | .prn => "PRN"
  | .add => "ADD"
  | .mul => "MUL"
  | .cmp => "CMP"
  | .push => "PUSH"
  | .pop => "POP"
  | .jmp => "JMP"
  | .jeq => "JEQ"
  | .jne => "JNE"
  | .call => "CALL"
  | .ret => "RET"
  | .hlt => "HLT"

/-- A register operand in assembler syntax: R0..R7 (R69); a byte 8..255 is written the same way. -/
def registerName (b : Byte) : String := "R" ++ toString b.toNat

/-- The operands in assembler syntax: registers by name, the immediate in decimal (R69). -/
def Instr.operandNames : Instr → List String
  | .ldi rA imm8 => [registerName rA, toString imm8.toNat]
  | .prn rA => [registerName rA]
  | .add rA rB => [registerName rA, registerName rB]
  | .mul rA rB => [registerName rA, registerName rB]
  | .cmp rA rB => [registerName rA, registerName rB]
  | .push rA => [registerName rA]
  | .pop rA => [registerName rA]
  | .jmp rA => [registerName rA]
  | .jeq rA => [registerName rA]
  | .jne rA => [registerName rA]
  | .call rA => [registerName rA]
  | .ret => []
  | .hlt => []

/-- Assembler syntax: the mnemonic, then its operands separated by a comma (R69; decision D21, assumption
log 23). It has no effect on the machine. -/
def Instr.assembly (i : Instr) : String :=
  match i.operandNames with
  | [] => i.mnemonic.name
  | a :: rest => i.mnemonic.name ++ " " ++ rest.foldl (fun text b => text ++ "," ++ b) a

/-- The length of the longest instruction in bytes (R60). -/
def maxInstrLength : Nat := 3

/-- The bytes of an instruction given as a number whose bit 0 is the least significant bit of the
first byte, as spec/opcode_table.json numbers it: byte k is bits 8k+7..8k, and every bit above
`nbits` is 0. Always as many bytes as the longest instruction has. -/
def tableWordBytes (nbits w : Nat) : List Byte :=
  (List.range maxInstrLength).map fun k => BitVec.ofNat 8 ((w % 2 ^ nbits) / 256 ^ k)

/-- The instruction the decoder reads from an instruction whose bits are `w`. -/
def decodeTableWord (nbits w : Nat) : Option Instr :=
  match decode (tableWordBytes nbits w) with
  | .ok (i, _) => some i
  | .error _ => none

end Sys2Proof
end

