-- ==== Sys2Proof/Machine/Ops.lean ====
section
/-! DEFINITION. The shared operations: memory, registers, program counter, output port, the stack
pointer's checked moves, taking a fault, and how an instruction's effect is committed. -/

namespace Sys2Proof.Machine

/-! ### Memory -/

/-- What a cell that nothing has written reads as: 0, the source's "zero-initialized" (R34). -/
def Memory.unlisted : Byte := 0

/-- The value listed for address `a`, or what an unlisted address reads as. -/
def lookupCell (a : Nat) : List Host.Cell → Byte
  | [] => Memory.unlisted
  | c :: rest => if c.1 = a then c.2 else lookupCell a rest

/-- Put a cell in front of the first cell with a higher address. -/
def insertCell (c : Host.Cell) : List Host.Cell → List Host.Cell
  | [] => [c]
  | d :: rest => if c.1 < d.1 then c :: d :: rest else d :: insertCell c rest

/-- The content of cell `a` (R40). -/
def Memory.get (m : Memory) (a : Nat) : Byte := lookupCell a m.cells

/-- Cell `a` now holds `v`; every other cell keeps its value (R40). A cell that holds what an unlisted
address reads as is not listed. -/
def Memory.set (m : Memory) (a : Nat) (v : Byte) : Memory :=
  let others := m.cells.filter (fun c => c.1 ≠ a)
  ⟨if v = Memory.unlisted then others else insertCell (a, v) others⟩

/-- The canonical form: addresses strictly rising, each inside 0..255, none listed with the value an
unlisted address reads as (assumption log 16). -/
abbrev Memory.wf (m : Memory) : Prop :=
  m.cells.Pairwise (fun c d => c.1 < d.1) ∧ ∀ c ∈ m.cells, c.1 < memSize ∧ c.2 ≠ Memory.unlisted

/-- An address names a cell when it is 0..255 (R41). -/
abbrev InMemory (a : Int) : Prop := 0 ≤ a ∧ a < memSize

/-- `MemRead(addr, 1)`: the cell's content, or MemoryOutOfRange(addr) (R10, R41). -/
def memRead (s : State) (a : Int) : Except Raised Byte :=
  if InMemory a then .ok (s.mem.get a.toNat) else .error ⟨.memoryOutOfRange, a⟩

/-- `MemWrite(addr, 1, v)`: store one byte, or MemoryOutOfRange(addr) (R10, R41). -/
def memWrite (s : State) (a : Int) (v : Byte) : Except Raised State :=
  if InMemory a then .ok { s with mem := s.mem.set a.toNat v } else .error ⟨.memoryOutOfRange, a⟩

/-- Store bytes at consecutive ascending addresses; an address past the top of memory takes none. -/
def Memory.setBytes (m : Memory) (a : Nat) : List Byte → Memory
  | [] => m
  | b :: rest => Memory.setBytes (if a < memSize then m.set a b else m) (a + 1) rest

/-! ### Registers, flags, program counter, output -/

/-- `x[r]` (R10, R21). -/
def readReg (s : State) (r : Reg) : Byte := s.x[r]

/-- `x[r] <- v` (R10, R21). No register is hard-wired. -/
def writeReg (r : Reg) (v : Byte) (s : State) : State := { s with x := s.x.set r v }

/-- `SP`, a name for `x[7]` (R10, R22). -/
def sp (s : State) : Byte := readReg s spIndex

/-- The three flags take new values (R26). -/
def setFlags (f : Flags) (s : State) : State := { s with flags := f }

/-- Normal completion: pc moves past an instruction of `len` bytes (R24, R72 `Next`). -/
def advance (len : Nat) (s : State) : State := { s with pc := s.pc + BitVec.ofNat 9 len }

/-- Explicit new program-counter value: an 8-bit target, so 0..255 (R72 `Jump`, R131). -/
def jumpTo (target : Byte) (s : State) : State := { s with pc := target.zeroExtend 9 }

/-- `Out(v)`: append to the output port's sequence (R10, R101). -/
def emit (v : Byte) (s : State) : State := { s with out := s.out ++ [v] }

/-- `run <- Halted` (R150). -/
def haltRun (s : State) : State := { s with run := .halted }

/-! ### The stack pointer's checked moves -/

/-- SP <- `n`, computed on integers: a value outside 0..255 raises MemoryOutOfRange(n) and is not
written (R120). -/
def moveSp (s : State) (n : Int) : Except Raised State :=
  if InMemory n then .ok (writeReg spIndex (BitVec.ofInt 8 n) s) else .error ⟨.memoryOutOfRange, n⟩

/-- The decrement before a push; from 0 it raises MemoryOutOfRange(-1) (R120). -/
def decSp (s : State) : Except Raised State := moveSp s ((sp s).toNat - 1)

/-- The increment after a pop; to 256 it raises MemoryOutOfRange(256) (R120). -/
def incSp (s : State) : Except Raised State := moveSp s ((sp s).toNat + 1)

/-! ### Faults -/

/-- Fault entry: run <- Faulted and fault <- (cause, pc of the faulting instruction, info); nothing
else changes, pc included (R163; decision D6, assumption log 8). There is no return from it (R170):
only RESET leaves Faulted (`hostReset` in Machine/Ports.lean). -/
def takeFault (r : Raised) (s : State) : State :=
  { s with run := .faulted, fault := ⟨r.cause, s.pc, r.info⟩ }

/-- Commit an instruction's writes all at once, or none of them: when it raised, the state BEFORE the
instruction takes the fault (R10, R70, R163(a)). -/
def settle (s : State) : Except Raised State → Outcome
  | .ok t => .next t
  | .error r => .next (takeFault r s)

end Sys2Proof.Machine
end

