-- ==== Sys2Proof/Machine/Operands.lean ====
section
/-! DEFINITION. The operand forms: a register named by a whole byte. An immediate is the operand byte
itself (R63) and needs no operation. -/

namespace Sys2Proof.Machine

/-- A register operand: the byte used unchanged as an index; 8..255 raises InvalidRegisterIndex(byte)
(R23, R62; decision D4, assumption log 7). -/
def registerOperand (b : Byte) : Except Raised Reg :=
  if h : b.toNat < 8 then .ok ⟨b.toNat, h⟩ else .error ⟨.invalidRegisterIndex, b.toNat⟩

/-- Two register operands, checked in operand order rA then rB (R70, R164). -/
def registerOperands (rA rB : Byte) : Except Raised (Reg × Reg) := do
  let a ← registerOperand rA
  let b ← registerOperand rB
  return (a, b)

end Sys2Proof.Machine
end

