-- ==== Sys2Proof/Machine/Arith.lean ====
section
/-! DEFINITION. ADD, MUL and CMP (spec/41_arith_logic.md). -/

namespace Sys2Proof.Machine

/-- `trunc_8(n)`: n mod 256 (R10, R111; decision D1, assumption log 13). -/
def trunc8 (n : Nat) : Byte := BitVec.ofNat 8 (n % 256)

/-- ADD: "reg_a ← reg_a + reg_b (unsigned, wraps on overflow at register width)" (R110). -/
def execAdd (rA rB : Byte) (s : State) : Outcome :=
  settle s do
    let (a, b) ← registerOperands rA rB
    let sum := trunc8 ((readReg s a).toNat + (readReg s b).toNat)
    return advance Mnemonic.add.length (writeReg a sum s)

/-- MUL: "reg_a ← reg_a × reg_b (same wraparound rule)" (R112). -/
def execMul (rA rB : Byte) (s : State) : Outcome :=
  settle s do
    let (a, b) ← registerOperands rA rB
    let product := trunc8 ((readReg s a).toNat * (readReg s b).toNat)
    return advance Mnemonic.mul.length (writeReg a product s)

/-- CMP: the flags of the unsigned comparison; no register or memory is written (R114). -/
def execCmp (rA rB : Byte) (s : State) : Outcome :=
  settle s do
    let (a, b) ← registerOperands rA rB
    return advance Mnemonic.cmp.length (setFlags (compareFlags (readReg s a) (readReg s b)) s)

end Sys2Proof.Machine
end

