-- ==== Sys2Proof/Machine/DataMovement.lean ====
section
/-! DEFINITION. LDI and PRN (spec/40_data_movement.md). -/

namespace Sys2Proof.Machine

/-- LDI: "register ← immediate value" (R100). -/
def execLdi (rA imm8 : Byte) (s : State) : Outcome :=
  settle s do
    let a ← registerOperand rA
    return advance Mnemonic.ldi.length (writeReg a imm8 s)

/-- PRN: emit the register's value on the output port (R102). -/
def execPrn (rA : Byte) (s : State) : Outcome :=
  settle s do
    let a ← registerOperand rA
    return advance Mnemonic.prn.length (emit (readReg s a) s)

end Sys2Proof.Machine
end

