-- ==== Sys2Proof/Machine/Halt.lean ====
section
/-! DEFINITION. HLT (spec/45_halt.md). -/

namespace Sys2Proof.Machine

/-- HLT: pc advances by the fixed length 1 (decision D10, assumption log 12) and run <- Halted (R150). -/
def execHlt (s : State) : Outcome := .next (haltRun (advance Mnemonic.hlt.length s))

end Sys2Proof.Machine
end

