-- ==== Sys2Proof/Machine/Jumps.lean ====
section
/-! DEFINITION. JMP, JEQ and JNE (spec/43_jumps.md). The register operand is checked whether or not the
jump is taken. -/

namespace Sys2Proof.Machine

/-- JMP: "program counter ← register's value (no auto-advance)" (R130). -/
def execJmp (rA : Byte) (s : State) : Outcome :=
  settle s do
    let a ← registerOperand rA
    return jumpTo (readReg s a) s

/-- JEQ: jump if the Equal flag is set, else fall through (R132). -/
def execJeq (rA : Byte) (s : State) : Outcome :=
  settle s do
    let a ← registerOperand rA
    return if s.flags.e then jumpTo (readReg s a) s else advance Mnemonic.jeq.length s

/-- JNE: jump if the Equal flag is clear, else fall through (R134). -/
def execJne (rA : Byte) (s : State) : Outcome :=
  settle s do
    let a ← registerOperand rA
    return if s.flags.e then advance Mnemonic.jne.length s else jumpTo (readReg s a) s

end Sys2Proof.Machine
end

