-- ==== Sys2Proof/Machine/Stack.lean ====
section
/-! DEFINITION. PUSH and POP (spec/42_stack.md). A later line sees the writes of an earlier line, which
decides the cases where the operand is R7 (decision D23, assumption log 15). -/

namespace Sys2Proof.Machine

/-- PUSH: SP <- SP - 1, then mem[SP] <- x[rA], the register read after the SP write (R121). -/
def execPush (rA : Byte) (s : State) : Outcome :=
  settle s do
    let a ← registerOperand rA
    let s1 ← decSp s
    let s2 ← memWrite s1 (sp s1).toNat (readReg s1 a)
    return advance Mnemonic.push.length s2

/-- POP: x[rA] <- mem[SP], then SP <- SP + 1, SP read after the register write (R122). -/
def execPop (rA : Byte) (s : State) : Outcome :=
  settle s do
    let a ← registerOperand rA
    let v ← memRead s (sp s).toNat
    let s1 ← incSp (writeReg a v s)
    return advance Mnemonic.pop.length s1

end Sys2Proof.Machine
end

