-- ==== Sys2Proof/Machine/Subroutine.lean ====
section
/-! DEFINITION. CALL and RET (spec/44_subroutine.md), on the same stack as PUSH and POP (R140). -/

namespace Sys2Proof.Machine

/-- The return address of a CALL at pc: p + 2. Past 255 it names no cell and raises
MemoryOutOfRange(256) (R141; decision D9, assumption log 11). -/
def returnAddress (s : State) : Except Raised Byte :=
  let ret := s.pc.toNat + Mnemonic.call.length
  if ret < memSize then .ok (BitVec.ofNat 8 ret) else .error ⟨.memoryOutOfRange, 256⟩

/-- CALL: push p + 2, then pc <- x[rA], the register read after the SP write (R141). The return
address is checked before the stack (R164). -/
def execCall (rA : Byte) (s : State) : Outcome :=
  settle s do
    let a ← registerOperand rA
    let ret ← returnAddress s
    let s1 ← decSp s
    let s2 ← memWrite s1 (sp s1).toNat ret
    return jumpTo (readReg s2 a) s2

/-- RET: pop the top of the stack into pc (R142). -/
def execRet (s : State) : Outcome :=
  settle s do
    let t ← memRead s (sp s).toNat
    let s1 ← incSp s
    return jumpTo t s1

end Sys2Proof.Machine
end

