-- ==== Sys2Proof/Machine/Dispatch.lean ====
section
/-! DEFINITION. The dispatcher: one arm per instruction (R68). -/

namespace Sys2Proof.Machine

def exec (i : Instr) (s : State) : Host.Outcome State Fault Refusal :=
  match i with
  | .ldi rA imm8 => Sys2Proof.Machine.execLdi rA imm8 s
  | .prn rA => Sys2Proof.Machine.execPrn rA s
  | .add rA rB => Sys2Proof.Machine.execAdd rA rB s
  | .mul rA rB => Sys2Proof.Machine.execMul rA rB s
  | .cmp rA rB => Sys2Proof.Machine.execCmp rA rB s
  | .push rA => Sys2Proof.Machine.execPush rA s
  | .pop rA => Sys2Proof.Machine.execPop rA s
  | .jmp rA => Sys2Proof.Machine.execJmp rA s
  | .jeq rA => Sys2Proof.Machine.execJeq rA s
  | .jne rA => Sys2Proof.Machine.execJne rA s
  | .call rA => Sys2Proof.Machine.execCall rA s
  | .ret => Sys2Proof.Machine.execRet s
  | .hlt => Sys2Proof.Machine.execHlt s

end Sys2Proof.Machine
end

