-- ==== Sys2Proof/Machine/Engine.lean ====
section
/-! DEFINITION. The fetch and the fetch-decode-execute step (spec/30_encoding.md section 5). -/

namespace Sys2Proof.Machine

/-- The bytes at `a`, `a+1`, ... that exist, at most `n` of them: reading stops at the top of memory,
because addresses never wrap (R41, R43). -/
def bytesFrom (m : Memory) (a : Nat) : Nat → List Byte
  | 0 => []
  | n + 1 => if a < memSize then m.get a :: bytesFrom m (a + 1) n else []

/-- The bytes the decoder may look at: those from pc up, as many as the longest instruction has. Reads
have no side effect (R45), so looking at a byte the instruction does not have changes nothing
(assumption log 20). -/
def fetchWindow (s : State) : List Byte := bytesFrom s.mem s.pc.toNat maxInstrLength

/-- What the step raises when there is no instruction at `p`: the opcode fetch out of range, then an
unknown opcode, then an operand fetch out of range (R70, R71, R164). -/
def fetchRaise (p : Pc) : DecodeError → Raised
  | .noOpcode => ⟨.memoryOutOfRange, p.toNat⟩
  | .unknownOpcode op => ⟨.unknownOpcode, op.toNat⟩
  | .missingOperand k => ⟨.memoryOutOfRange, p.toNat + k⟩

/-- Fetch and decode the instruction at pc, all operand bytes before any data access (R49, R70). -/
def fetch (c : Config) (s : State) : Except Raised Instr :=
  match decodeWith c (fetchWindow s) with
  | .ok (i, _) => .ok i
  | .error e => .error (fetchRaise s.pc e)

/-- One step while Running: fetch, decode, dispatch (R70). -/
def stepRunning (c : Config) (s : State) : Outcome :=
  match fetch c s with
  | .ok i => exec i s
  | .error r => .next (takeFault r s)

/-- The step under any opcode map: enabled only while Running (R28, R70; decision D18). -/
def stepWith (c : Config) (s : State) : Outcome :=
  match s.run with
  | .running => stepRunning c s
  | .halted => .fault .halted
  | .faulted => .fault .faulted

/-- The instruction `w`, as the decoder's table numbers it, stored where the next fetch reads. -/
def placeTableWord (s : State) (nbits w : Nat) : State :=
  { s with mem := s.mem.setBytes s.pc.toNat (tableWordBytes nbits w) }

end Sys2Proof.Machine
end

