-- ==== Sys2Proof/Machine/Step.lean ====
section
/-! DEFINITION. The step of the machine, with the default opcode map. -/

namespace Sys2Proof.Machine

/-- One step (R70): "execute one instruction". -/
def step : State → Host.Outcome State Fault Refusal := fun s => stepWith defaultConfig s

/-- `s` with an instruction stored at pc, where `step` fetches (assumption log 17). -/
def State.withFetchWord (s : State) (nbits w : Nat) : State := placeTableWord s nbits w

end Sys2Proof.Machine
end

