-- ==== Sys2Proof/Machine/Ports.lean ====
section
/-! DEFINITION. The host interface of R178: RESET, LOAD, STEP, and the reading ports STATUS, PEEK, OUT. -/

namespace Sys2Proof.Machine

/-- What the host does at the ports that lead into the CORE (R178). -/
inductive HostMove where
  /-- RESET: engine construction (R180, R181) -/
  | reset
  /-- LOAD(a, byte), a in 0..255 (R182) -/
  | load (a v : Byte)
  /-- STEP: one instruction (R70) -/
  | step
  deriving DecidableEq, Repr

/-- The CORE and whether a step has been issued since the last RESET, which closes the load port
(R178, R182; assumption log 19). -/
structure Session where
  started : Bool
  core : State
  deriving DecidableEq, Repr

/-- RESET: all state is discarded and reset is performed afresh (R181; decision D24). -/
def hostReset : Session := ⟨false, State.reset⟩

/-- LOAD: before the first step the byte goes to the cell; afterwards the host has no such move (R54,
R182; decision D13). -/
def hostLoad (a v : Byte) (h : Session) : Option Session :=
  if h.started then none else some { h with core := { h.core with mem := h.core.mem.set a.toNat v } }

/-- STEP: where the step is enabled, the next state; otherwise the host has no such move (R28, R178). -/
def hostStep (h : Session) : Option Session :=
  match step h.core with
  | .next t => some ⟨true, t⟩
  | .fault _ => none
  | .refused _ => none

/-- One host move, or none where R178 does not allow it. -/
def hostMove (h : Session) : HostMove → Option Session
  | .reset => some hostReset
  | .load a v => hostLoad a v h
  | .step => hostStep h

/-- The STATUS port: the run state and the fault record (R178). -/
def hostStatus (h : Session) : RunState × FaultRecord := (h.core.run, h.core.fault)

/-- The OUT port: the values emitted since reset, oldest first (R101, R178). -/
def hostOut (h : Session) : List Byte := h.core.out

/-- The PEEK port: the read-only view of mem, x, pc and the flags (R54, R178). -/
def hostPeek (h : Session) : Memory × Vector Byte 8 × Pc × Flags :=
  (h.core.mem, h.core.x, h.core.pc, h.core.flags)

/-- Boot (R180): reset with the program's bytes copied into memory from address 0. A program of more
than 256 bytes is refused and the engine never starts (R182; decision D16, assumption log 21). -/
def boot (program : List Byte) : Option Session :=
  if program.length ≤ memSize then
    some { hostReset with core := { State.reset with mem := State.reset.mem.setBytes loadBase program } }
  else none

end Sys2Proof.Machine
end

