-- ==== Sys2Proof/Safety.lean ====
section
/-! DEFINITION. What a well-kept state is, and the words the claims use. -/

namespace Sys2Proof.Machine

/-- The four flag states None, Eq, Lt, Gt: no two flags are set together (R27). -/
def Flags.legal (f : Flags) : Bool := !(f.e && f.l) && !(f.e && f.g) && !(f.l && f.g)

/-- Exactly one of the three flags is set, as after any compare (R26). -/
def Flags.exactlyOne (f : Flags) : Bool := f.legal && (f.e || f.l || f.g)

/-- The state after a fault of the given cause and info, written out from R163: run is Faulted, the
record is (cause, pc, info), and everything else, pc included, is as before. -/
def State.faulted (s : State) (cause : FaultCause) (info : Int) : State :=
  { mem := s.mem, x := s.x, pc := s.pc, flags := s.flags, run := .faulted,
    fault := { cause := cause, fpc := s.pc, info := info }, out := s.out }

/-- The instruction that led from `s` to `t` took a fault: nothing but the run state and the record differs
(R163). -/
abbrev TookFault (s t : State) : Prop := t = s.faulted t.fault.cause t.fault.info

/-- What a fault record can hold once the run state is Faulted (R31, R161): an unknown opcode's byte,
an out-of-range address -1 or 256, or a register operand byte 8..255. -/
abbrev FaultRecord.legal (f : FaultRecord) : Prop :=
  (f.cause = .unknownOpcode ∧ 0 ≤ f.info ∧ f.info ≤ 255) ∨
  (f.cause = .memoryOutOfRange ∧ (f.info = -1 ∨ f.info = 256)) ∨
  (f.cause = .invalidRegisterIndex ∧ 8 ≤ f.info ∧ f.info ≤ 255)

/-- The invariant of the machine: memory in its canonical form, pc in 0..256 (R25), one of the four flag
states (R27), and a fault record that agrees with the run state (R31). -/
structure State.Inv (s : State) : Prop where
  mem_wf : s.mem.wf
  pc_le : s.pc.toNat ≤ 256
  flags_legal : s.flags.legal = true
  no_fault : s.run ≠ .faulted → s.fault = FaultRecord.none
  fault_legal : s.run = .faulted → s.fault.legal ∧ s.fault.fpc = s.pc

/-- The registers an instruction can write: its destination, and SP for the stack instructions (R100 to
R142). -/
def writesReg (i : Instr) (r : Reg) : Prop :=
  match i with
  | .ldi rA _ => rA.toNat = r
  | .add rA _ => rA.toNat = r
  | .mul rA _ => rA.toNat = r
  | .pop rA => rA.toNat = r ∨ r = spIndex
  | .push _ => r = spIndex
  | .call _ => r = spIndex
  | .ret => r = spIndex
  | .prn _ => False
  | .cmp _ _ => False
  | .jmp _ => False
  | .jeq _ => False
  | .jne _ => False
  | .hlt => False

/-- The address an instruction stores to, computed as its meaning computes it: PUSH and CALL store at SP
after the checked decrement (R121, R141); every other instruction, and a decrement that raises, stores
nothing (R42). -/
def storeAddress (i : Instr) (s : State) : Option Nat :=
  match i with
  | .push _ => (decSp s).toOption.map fun s1 => (sp s1).toNat
  | .call _ => (decSp s).toOption.map fun s1 => (sp s1).toNat
  | .ldi _ _ => none
  | .prn _ => none
  | .add _ _ => none
  | .mul _ _ => none
  | .cmp _ _ => none
  | .pop _ => none
  | .jmp _ => none
  | .jeq _ => none
  | .jne _ => none
  | .ret => none
  | .hlt => none

/-- An instruction of `len` bytes whose opcode byte `op` stands so near the top of memory that an operand
byte would lie past 255 faults at the fetch with MemoryOutOfRange(256) (R71). -/
def FetchFaultsAtTop (op : Byte) (len : Nat) : Prop :=
  ∀ s : State, s.run = .running → s.pc.toNat ≤ 255 → s.mem.get s.pc.toNat = op →
    255 < s.pc.toNat + (len - 1) → step s = .next (s.faulted .memoryOutOfRange 256)

/-- The step reads the instruction's bytes at pc: every byte of `bs` stands at its place from pc up, inside
memory. -/
def BytesAtPc (s : State) (bs : List Byte) : Prop :=
  ∀ (k : Nat) (b : Byte), bs[k]? = some b → s.pc.toNat + k ≤ 255 ∧ s.mem.get (s.pc.toNat + k) = b

end Sys2Proof.Machine
end

