-- ==== Sys2Proof/Certificates/Slice0/Obligations.lean ====
section
/-! DEFINITION. The statements for the provers.

Spelling: `s.x[r]` is register r, `s.x[7]` the stack pointer, `s.mem.get a` the cell at `a`; `s.faulted c i`
is the state after fault entry (Safety.lean, R163). `s.pc + n` is the 9-bit sum, which is p + n for every
address p = 0..255 an instruction is fetched from (`PcNeverWraps`). The statements hold for every state,
reachable or not, unless they take the invariant as a premise. -/

open Sys2Proof Sys2Proof.Machine

/-! ### Encoding -/

/-- Decoding an encoding gives the instruction back, whatever follows it, for every operand value and under
every legal opcode map (R60, R61, R64; the opcode values are a parameter, decision D2, log 2; operand order
decision D3, log 14). -/
def Obligations.DecodeOfEncode : Prop :=
  ∀ c : Config, c.Legal → ∀ (i : Instr) (rest : List Byte),
    decodeWith c (encodeWith c i ++ rest) = .ok (i, rest)

/-- Whatever bytes decode to an instruction are that instruction's encoding followed by the rest: each byte
string has one meaning (R60, R61, R66, R67). -/
def Obligations.EncodeOfDecode : Prop :=
  ∀ c : Config, c.Legal → ∀ (bs rest : List Byte) (i : Instr),
    decodeWith c bs = .ok (i, rest) → bs = encodeWith c i ++ rest

/-- Words written out bit by bit from the encoding column of the opcode table, one for every mnemonic (the
ten opcode bytes other than LDI, PRN, HLT are the spec's default, decision D2, log 2; that the first operand
byte of the ADD, MUL and CMP words is rA and the second rB is decision D3, log 14). -/
def Obligations.SpecWordsDecode : Prop :=
  decode [0b10000010, 0b00000000, 0b00001000] = .ok (.ldi 0 8, []) ∧
  decode [0b01000111, 0b00000000] = .ok (.prn 0, []) ∧
  decode [0b10100000, 0b00000001, 0b00000010] = .ok (.add 1 2, []) ∧
  decode [0b10100010, 0b00000000, 0b00000001] = .ok (.mul 0 1, []) ∧
  decode [0b10100111, 0b00000011, 0b00000100] = .ok (.cmp 3 4, []) ∧
  decode [0b01000101, 0b00000101] = .ok (.push 5, []) ∧
  decode [0b01000110, 0b00000110] = .ok (.pop 6, []) ∧
  decode [0b01010100, 0b00000010] = .ok (.jmp 2, []) ∧
  decode [0b01010101, 0b00000011] = .ok (.jeq 3, []) ∧
  decode [0b01010110, 0b00000011] = .ok (.jne 3, []) ∧
  decode [0b01010000, 0b00000001] = .ok (.call 1, []) ∧
  decode [0b00010001] = .ok (.ret, []) ∧
  decode [0b00000001] = .ok (.hlt, [])

/-- For every opcode of the default map the length equals op[7:6] + 1 (R65; it rests on the default values,
decision D2, log 2, and on decision D22). -/
def Obligations.LengthIsTopBitsPlusOne : Prop :=
  ∀ m : Mnemonic, m.length = (defaultConfig.opcodeOf m).toNat / 64 + 1

/-- Under the default map exactly 243 byte values are illegal opcodes, 0x00 and 0xFF among them (R66; the
count rests on the default values, decision D2, log 2). -/
def Obligations.IllegalOpcodeBytes : Prop :=
  ((List.range 256).filter fun n => (mnemonicOf defaultConfig (BitVec.ofNat 8 n)).isNone).length = 243 ∧
  (∀ rest, decode (0x00 :: rest) = .error (.unknownOpcode 0x00)) ∧
  (∀ rest, decode (0xFF :: rest) = .error (.unknownOpcode 0xFF))

/-! ### The step -/

/-- When the bytes of an instruction's encoding stand at pc in memory, a running step is exec of that
instruction, under every legal opcode map and so for `step`; the step adds nothing around exec. It holds for an
instruction with a register byte 8..255 too. R70 makes the register check in the step, between the operand
fetch and the handler; that the check is part of exec here, so that nothing stands around exec, is the model's
own division of R70's step, log 18. The opcode values are decision D2 (log 2), operand order D3 (log 14). -/
def Obligations.StepRunsInstructionAtPc : Prop :=
  (∀ c : Config, c.Legal → ∀ (s : State) (i : Instr), s.run = .running → BytesAtPc s (encodeWith c i) →
    stepWith c s = exec i s) ∧
  (∀ (s : State) (i : Instr), s.run = .running → BytesAtPc s (encode i) → step s = exec i s)

/-- A step is enabled exactly while Running; in Halted and in Faulted there is no next state (R28, R151, R163
(c)). That the model answers a named stop there is its own reading, log 3 (decision D18). -/
def Obligations.StepEnabledExactlyWhileRunning : Prop :=
  ∀ s : State, (s.run = .running → ∃ t, step s = .next t) ∧
    (s.run = .halted → step s = .fault .halted) ∧ (s.run = .faulted → step s = .fault .faulted)

/-- A fetched byte with no dispatch entry, under any opcode map and at any address 0..255 (255 included, so
no operand fetch comes first), makes the run state Faulted with cause UnknownOpcode, and execution stops
(R162). -/
def Obligations.UnknownOpcodeFaults : Prop :=
  ∀ (c : Config) (s : State), s.run = .running → s.pc.toNat ≤ 255 →
    (∀ m : Mnemonic, c.opcodeOf m ≠ s.mem.get s.pc.toNat) →
    ∃ t, stepWith c s = .next t ∧ t.run = .faulted ∧ t.fault.cause = .unknownOpcode ∧
      stepWith c t = .fault .faulted

/-- The fetch's faults in their order and with their info: MemoryOutOfRange(pc) past the top, else
UnknownOpcode(op), else MemoryOutOfRange(256) for an operand byte past the top; each leaves everything but
the run state and the record as it was (R71, R161, R164 entries 1 to 3; decisions D5, D6, D7, D8, logs 6, 8,
9, 10). -/
def Obligations.FetchFaultsInOrder : Prop :=
  ∀ c : Config, c.Legal → ∀ s : State, s.run = .running →
    (256 ≤ s.pc.toNat → stepWith c s = .next (s.faulted .memoryOutOfRange s.pc.toNat)) ∧
    (s.pc.toNat ≤ 255 → (∀ m : Mnemonic, c.opcodeOf m ≠ s.mem.get s.pc.toNat) →
      stepWith c s = .next (s.faulted .unknownOpcode (s.mem.get s.pc.toNat).toNat)) ∧
    (∀ m : Mnemonic, s.pc.toNat ≤ 255 → c.opcodeOf m = s.mem.get s.pc.toNat →
      255 < s.pc.toNat + (m.length - 1) → stepWith c s = .next (s.faulted .memoryOutOfRange 256))

/-- A register operand byte 8..255 makes the instruction fault with InvalidRegisterIndex and that byte, the
first such byte in operand order, before any effect and before the instruction's own checks (R23, R62, R164
entry 4; the cause is the spec's decision D4, log 7; precise faults D6, log 8; order D7, log 9). -/
def Obligations.InvalidRegisterFaultsFirst : Prop :=
  ∀ (i : Instr) (s : State) (b : Byte), i.registerOperands.find? (fun r => 8 ≤ r.toNat) = some b →
    exec i s = .next (s.faulted .invalidRegisterIndex b.toNat)

/-! ### One statement per instruction: encoding, result, faults -/

/-- LDI (R100): bytes 0x82 rA imm8; x[rA] <- imm8 with no extension, pc <- p + 3, nothing else changes (rA = 7
writes the stack pointer); its faults are the step's. The InvalidRegisterIndex clause rests on decision D4
(log 7), the faulted states on D5 and D6 (logs 6, 8), the operand fetch's fault before the register check (an LDI
at 254 with a bad register byte) on D7 (log 9). -/
def Obligations.LdiLoadsImmediate : Prop :=
  (∀ (rA imm8 : Byte) (rest : List Byte), decode (0x82 :: rA :: imm8 :: rest) = .ok (.ldi rA imm8, rest)) ∧
  (∀ (s : State) (rA imm8 : Byte) (_ : rA.toNat < 8),
    exec (.ldi rA imm8) s = .next { s with x := s.x.set rA.toNat imm8, pc := s.pc + 3 }) ∧
  (∀ (s : State) (rA imm8 : Byte), 8 ≤ rA.toNat →
    exec (.ldi rA imm8) s = .next (s.faulted .invalidRegisterIndex rA.toNat)) ∧
  FetchFaultsAtTop 0x82 3

/-- PRN (R102): bytes 0x47 rA; append x[rA] to the output, pc <- p + 2, nothing else changes; a PRN that
faults emits nothing. The InvalidRegisterIndex clause rests on decision D4 (log 7), the faulted states on D5
and D6 (logs 6, 8). -/
def Obligations.PrnEmitsRegister : Prop :=
  (∀ (rA : Byte) (rest : List Byte), decode (0x47 :: rA :: rest) = .ok (.prn rA, rest)) ∧
  (∀ (s : State) (rA : Byte) (_ : rA.toNat < 8),
    exec (.prn rA) s = .next { s with out := s.out ++ [s.x[rA.toNat]], pc := s.pc + 2 }) ∧
  (∀ (s : State) (rA : Byte), 8 ≤ rA.toNat →
    exec (.prn rA) s = .next (s.faulted .invalidRegisterIndex rA.toNat)) ∧
  FetchFaultsAtTop 0x47 2

/-- ADD (R110): bytes 0xA0 rA rB; x[rA] <- (x[rA] + x[rB]) mod 256, both read before the write, also for
rA = rB and rA = 7; pc <- p + 3; no flag and nothing else changes; rA is checked before rB. The opcode byte
rests on decision D2 (log 2), which byte is rA and which rB on D3 (log 14), the width on D1 (log 13), the
InvalidRegisterIndex clauses on D4 (log 7), the order of the faults (operand fetch, rA, rB) on D7 (log 9), the
faulted states on D5 and D6 (logs 6, 8). -/
def Obligations.AddWrapsAtEightBits : Prop :=
  (∀ (rA rB : Byte) (rest : List Byte), decode (0xA0 :: rA :: rB :: rest) = .ok (.add rA rB, rest)) ∧
  (∀ (s : State) (rA rB : Byte) (_ : rA.toNat < 8) (_ : rB.toNat < 8), ∃ v : Byte,
    v.toNat = (s.x[rA.toNat].toNat + s.x[rB.toNat].toNat) % 256 ∧
    exec (.add rA rB) s = .next { s with x := s.x.set rA.toNat v, pc := s.pc + 3 }) ∧
  (∀ (s : State) (rA rB : Byte), 8 ≤ rA.toNat →
    exec (.add rA rB) s = .next (s.faulted .invalidRegisterIndex rA.toNat)) ∧
  (∀ (s : State) (rA rB : Byte), rA.toNat < 8 → 8 ≤ rB.toNat →
    exec (.add rA rB) s = .next (s.faulted .invalidRegisterIndex rB.toNat)) ∧
  FetchFaultsAtTop 0xA0 3

/-- MUL (R112): bytes 0xA2 rA rB; x[rA] <- the low 8 bits of x[rA] * x[rB], both read before the write;
pc <- p + 3; no flag and nothing else changes; rA is checked before rB. The opcode byte rests on decision D2
(log 2), which byte is rA and which rB on D3 (log 14), the width on D1 (log 13), the InvalidRegisterIndex clauses
on D4 (log 7), the order of the faults (operand fetch, rA, rB) on D7 (log 9), the faulted states on D5 and D6
(logs 6, 8). -/
def Obligations.MulKeepsLowByte : Prop :=
  (∀ (rA rB : Byte) (rest : List Byte), decode (0xA2 :: rA :: rB :: rest) = .ok (.mul rA rB, rest)) ∧
  (∀ (s : State) (rA rB : Byte) (_ : rA.toNat < 8) (_ : rB.toNat < 8), ∃ v : Byte,
    v.toNat = (s.x[rA.toNat].toNat * s.x[rB.toNat].toNat) % 256 ∧
    exec (.mul rA rB) s = .next { s with x := s.x.set rA.toNat v, pc := s.pc + 3 }) ∧
  (∀ (s : State) (rA rB : Byte), 8 ≤ rA.toNat →
    exec (.mul rA rB) s = .next (s.faulted .invalidRegisterIndex rA.toNat)) ∧
  (∀ (s : State) (rA rB : Byte), rA.toNat < 8 → 8 ≤ rB.toNat →
    exec (.mul rA rB) s = .next (s.faulted .invalidRegisterIndex rB.toNat)) ∧
  FetchFaultsAtTop 0xA2 3

/-- CMP (R114): bytes 0xA7 rA rB; E, L and G all written, by the unsigned comparison, whatever they were;
pc <- p + 3; nothing else changes; rA is checked before rB. The opcode byte rests on decision D2 (log 2), which
byte is rA and which rB, and so which of L and G is set, on D3 (log 14), the InvalidRegisterIndex clauses on D4
(log 7), the order of the faults (operand fetch, rA, rB) on D7 (log 9), the faulted states on D5 and D6 (logs 6,
8). -/
def Obligations.CmpWritesAllThreeFlags : Prop :=
  (∀ (rA rB : Byte) (rest : List Byte), decode (0xA7 :: rA :: rB :: rest) = .ok (.cmp rA rB, rest)) ∧
  (∀ (s : State) (rA rB : Byte) (_ : rA.toNat < 8) (_ : rB.toNat < 8), ∃ f : Flags,
    (f.e = true ↔ s.x[rA.toNat].toNat = s.x[rB.toNat].toNat) ∧
    (f.l = true ↔ s.x[rA.toNat].toNat < s.x[rB.toNat].toNat) ∧
    (f.g = true ↔ s.x[rA.toNat].toNat > s.x[rB.toNat].toNat) ∧
    exec (.cmp rA rB) s = .next { s with flags := f, pc := s.pc + 3 }) ∧
  (∀ (s : State) (rA rB : Byte), 8 ≤ rA.toNat →
    exec (.cmp rA rB) s = .next (s.faulted .invalidRegisterIndex rA.toNat)) ∧
  (∀ (s : State) (rA rB : Byte), rA.toNat < 8 → 8 ≤ rB.toNat →
    exec (.cmp rA rB) s = .next (s.faulted .invalidRegisterIndex rB.toNat)) ∧
  FetchFaultsAtTop 0xA7 3

/-- PUSH (R121): bytes 0x45 rA; SP <- SP - 1, then the cell at the new SP takes x[rA] read after the SP write
(so PUSH R7 stores SP - 1, decision D23, log 15); every other cell, every other register, flags, output and
run state stay; pc <- p + 2. SP = 0 raises MemoryOutOfRange(-1). The opcode byte rests on decision D2 (log
2), the InvalidRegisterIndex clause on D4 (log 7), its place before the stack check on D7 (log 9), the faulted
states on D5 and D6 (logs 6, 8). -/
def Obligations.PushStoresBelowStackPointer : Prop :=
  (∀ (rA : Byte) (rest : List Byte), decode (0x45 :: rA :: rest) = .ok (.push rA, rest)) ∧
  (∀ (s : State) (rA : Byte) (_ : rA.toNat < 8), 1 ≤ s.x[7].toNat → ∃ t : State,
    exec (.push rA) s = .next t ∧
    t.x = s.x.set 7 (s.x[7] - 1) ∧
    t.mem.get (s.x[7].toNat - 1) = (if rA.toNat = 7 then s.x[7] - 1 else s.x[rA.toNat]) ∧
    (∀ a, a ≠ s.x[7].toNat - 1 → t.mem.get a = s.mem.get a) ∧
    t.pc = s.pc + 2 ∧ t.flags = s.flags ∧ t.run = s.run ∧ t.fault = s.fault ∧ t.out = s.out) ∧
  (∀ (s : State) (rA : Byte), rA.toNat < 8 → s.x[7].toNat = 0 →
    exec (.push rA) s = .next (s.faulted .memoryOutOfRange (-1))) ∧
  (∀ (s : State) (rA : Byte), 8 ≤ rA.toNat →
    exec (.push rA) s = .next (s.faulted .invalidRegisterIndex rA.toNat)) ∧
  FetchFaultsAtTop 0x45 2

/-- POP (R122): bytes 0x46 rA; x[rA] <- mem[SP], then SP <- SP + 1 read after the register write (so POP R7
leaves SP = popped byte + 1, decision D23, log 15); the popped cell and all memory stay; pc <- p + 2. When the
incremented SP would be 256 it raises MemoryOutOfRange(256) and commits nothing. The opcode byte rests on
decision D2 (log 2), the InvalidRegisterIndex clause on D4 (log 7), its place before the stack check on D7 (log
9), the faulted states on D5 and D6 (logs 6, 8). -/
def Obligations.PopLoadsAtStackPointer : Prop :=
  (∀ (rA : Byte) (rest : List Byte), decode (0x46 :: rA :: rest) = .ok (.pop rA, rest)) ∧
  (∀ (s : State) (rA : Byte) (_ : rA.toNat < 7), s.x[7].toNat ≤ 254 →
    exec (.pop rA) s = .next { s with
      x := (s.x.set rA.toNat (s.mem.get s.x[7].toNat)).set 7 (s.x[7] + 1), pc := s.pc + 2 }) ∧
  (∀ (s : State) (rA : Byte), rA.toNat < 7 → s.x[7].toNat = 255 →
    exec (.pop rA) s = .next (s.faulted .memoryOutOfRange 256)) ∧
  (∀ s : State, (s.mem.get s.x[7].toNat).toNat ≤ 254 →
    exec (.pop 7) s = .next { s with x := s.x.set 7 (s.mem.get s.x[7].toNat + 1), pc := s.pc + 2 }) ∧
  (∀ s : State, (s.mem.get s.x[7].toNat).toNat = 255 →
    exec (.pop 7) s = .next (s.faulted .memoryOutOfRange 256)) ∧
  (∀ (s : State) (rA : Byte), 8 ≤ rA.toNat →
    exec (.pop rA) s = .next (s.faulted .invalidRegisterIndex rA.toNat)) ∧
  FetchFaultsAtTop 0x46 2

/-- JMP (R130): bytes 0x54 rA; pc <- x[rA] and nothing else changes. The opcode byte rests on decision D2 (log
2), the InvalidRegisterIndex clause on D4 (log 7), the faulted states on D5 and D6 (logs 6, 8). -/
def Obligations.JmpTakesRegisterTarget : Prop :=
  (∀ (rA : Byte) (rest : List Byte), decode (0x54 :: rA :: rest) = .ok (.jmp rA, rest)) ∧
  (∀ (s : State) (rA : Byte) (_ : rA.toNat < 8),
    exec (.jmp rA) s = .next { s with pc := BitVec.ofNat 9 s.x[rA.toNat].toNat }) ∧
  (∀ (s : State) (rA : Byte), 8 ≤ rA.toNat →
    exec (.jmp rA) s = .next (s.faulted .invalidRegisterIndex rA.toNat)) ∧
  FetchFaultsAtTop 0x54 2

/-- JEQ (R132): bytes 0x55 rA; with E set pc <- x[rA], else pc <- p + 2; nothing else changes, and L and G do
not matter; the register byte is checked whether or not the jump is taken. The opcode byte rests on decision
D2 (log 2), the InvalidRegisterIndex clause on D4 (log 7), the faulted states on D5 and D6 (logs 6, 8). -/
def Obligations.JeqJumpsWhenEqual : Prop :=
  (∀ (rA : Byte) (rest : List Byte), decode (0x55 :: rA :: rest) = .ok (.jeq rA, rest)) ∧
  (∀ (s : State) (rA : Byte) (_ : rA.toNat < 8), s.flags.e = true →
    exec (.jeq rA) s = .next { s with pc := BitVec.ofNat 9 s.x[rA.toNat].toNat }) ∧
  (∀ (s : State) (rA : Byte), rA.toNat < 8 → s.flags.e = false →
    exec (.jeq rA) s = .next { s with pc := s.pc + 2 }) ∧
  (∀ (s : State) (rA : Byte), 8 ≤ rA.toNat →
    exec (.jeq rA) s = .next (s.faulted .invalidRegisterIndex rA.toNat)) ∧
  FetchFaultsAtTop 0x55 2

/-- JNE (R134): bytes 0x56 rA; with E clear pc <- x[rA], else pc <- p + 2; nothing else changes, and L and G
do not matter; the register byte is checked whether or not the jump is taken. The opcode byte rests on
decision D2 (log 2), the InvalidRegisterIndex clause on D4 (log 7), the faulted states on D5 and D6 (logs 6,
8). -/
def Obligations.JneJumpsWhenNotEqual : Prop :=
  (∀ (rA : Byte) (rest : List Byte), decode (0x56 :: rA :: rest) = .ok (.jne rA, rest)) ∧
  (∀ (s : State) (rA : Byte) (_ : rA.toNat < 8), s.flags.e = false →
    exec (.jne rA) s = .next { s with pc := BitVec.ofNat 9 s.x[rA.toNat].toNat }) ∧
  (∀ (s : State) (rA : Byte), rA.toNat < 8 → s.flags.e = true →
    exec (.jne rA) s = .next { s with pc := s.pc + 2 }) ∧
  (∀ (s : State) (rA : Byte), 8 ≤ rA.toNat →
    exec (.jne rA) s = .next (s.faulted .invalidRegisterIndex rA.toNat)) ∧
  FetchFaultsAtTop 0x56 2

/-- CALL (R141): bytes 0x50 rA; SP <- SP - 1, the cell at the new SP takes p + 2, pc <- x[rA] read after the SP
write (CALL R7 jumps to SP - 1, decision D23, log 15); every other cell, every other register, flags, output
and run state stay. A return address past 255 raises MemoryOutOfRange(256) (decision D9, log 11), checked
before SP = 0 raises MemoryOutOfRange(-1): that order, and the register check before both, is decision D7 (log
9). The opcode byte rests on decision D2 (log 2), the InvalidRegisterIndex clause on D4 (log 7), the faulted
states on D5 and D6 (logs 6, 8). -/
def Obligations.CallPushesReturnAddress : Prop :=
  (∀ (rA : Byte) (rest : List Byte), decode (0x50 :: rA :: rest) = .ok (.call rA, rest)) ∧
  (∀ (s : State) (rA : Byte) (_ : rA.toNat < 8), s.pc.toNat + 2 ≤ 255 → 1 ≤ s.x[7].toNat → ∃ t : State,
    exec (.call rA) s = .next t ∧
    t.x = s.x.set 7 (s.x[7] - 1) ∧
    (t.mem.get (s.x[7].toNat - 1)).toNat = s.pc.toNat + 2 ∧
    (∀ a, a ≠ s.x[7].toNat - 1 → t.mem.get a = s.mem.get a) ∧
    t.pc.toNat = (if rA.toNat = 7 then s.x[7].toNat - 1 else s.x[rA.toNat].toNat) ∧
    t.flags = s.flags ∧ t.run = s.run ∧ t.fault = s.fault ∧ t.out = s.out) ∧
  (∀ (s : State) (rA : Byte), rA.toNat < 8 → 255 < s.pc.toNat + 2 →
    exec (.call rA) s = .next (s.faulted .memoryOutOfRange 256)) ∧
  (∀ (s : State) (rA : Byte), rA.toNat < 8 → s.pc.toNat + 2 ≤ 255 → s.x[7].toNat = 0 →
    exec (.call rA) s = .next (s.faulted .memoryOutOfRange (-1))) ∧
  (∀ (s : State) (rA : Byte), 8 ≤ rA.toNat →
    exec (.call rA) s = .next (s.faulted .invalidRegisterIndex rA.toNat)) ∧
  FetchFaultsAtTop 0x50 2

/-- RET (R142): byte 0x11; pc <- mem[SP], SP <- SP + 1, nothing else changes, the popped cell included; SP = 255
raises MemoryOutOfRange(256). The opcode byte rests on decision D2 (log 2), the faulted state on D5 and D6
(logs 6, 8). -/
def Obligations.RetPopsProgramCounter : Prop :=
  (∀ rest : List Byte, decode (0x11 :: rest) = .ok (.ret, rest)) ∧
  (∀ s : State, s.x[7].toNat ≤ 254 →
    exec .ret s = .next { s with
      x := s.x.set 7 (s.x[7] + 1), pc := BitVec.ofNat 9 (s.mem.get s.x[7].toNat).toNat }) ∧
  (∀ s : State, s.x[7].toNat = 255 → exec .ret s = .next (s.faulted .memoryOutOfRange 256))

/-- HLT (R150): byte 0x01; run <- Halted, pc <- p + 1 (decision D10, log 12), nothing else changes; a HLT at 255
leaves pc = 256. -/
def Obligations.HltHalts : Prop :=
  (∀ rest : List Byte, decode (0x01 :: rest) = .ok (.hlt, rest)) ∧
  (∀ s : State, exec .hlt s = .next { s with run := .halted, pc := s.pc + 1 }) ∧
  (∀ s : State, s.run = .running → s.pc.toNat = 255 → s.mem.get 255 = 0x01 →
    ∃ t, step s = .next t ∧ t.run = .halted ∧ t.pc.toNat = 256)

/-! ### Frames and whole-machine rules -/

/-- The register frame of all thirteen instructions: a register that is neither the destination (LDI, ADD,
MUL, POP) nor the stack pointer of a stack instruction (PUSH, POP, CALL, RET) is unchanged, whatever the
instruction does, a fault included (R21, R22, R100 to R150). -/
def Obligations.RegisterFrame : Prop :=
  ∀ (i : Instr) (s t : State) (r : Reg), exec i s = .next t → ¬ writesReg i r → t.x[r] = s.x[r]

/-- The memory frame of all thirteen instructions. Only PUSH and CALL store, one byte, at SP - 1 (the address
the meaning computes, `storeAddress`); every cell outside that byte reads as before, and a form that stores
nothing leaves every cell (R42, R124). -/
def Obligations.MemoryFrame : Prop :=
  (∀ (i : Instr) (s t : State), exec i s = .next t → storeAddress i s = none →
    ∀ a, t.mem.get a = s.mem.get a) ∧
  (∀ (i : Instr) (s t : State) (a : Nat), exec i s = .next t → storeAddress i s = some a →
    ∀ b, b ≠ a → t.mem.get b = s.mem.get b) ∧
  (∀ (i : Instr) (s : State) (a : Nat), storeAddress i s = some a →
    (i.mnemonic = .push ∨ i.mnemonic = .call) ∧ 1 ≤ s.x[7].toNat ∧ a = s.x[7].toNat - 1)

/-- The flags (R26): exactly one is true after any compare; CMP is the only instruction that writes a flag; JEQ
and JNE read E; no instruction reads L or G: two states that differ in L and G alone go to states that differ
in the flags alone, a CMP that completes leaves the same flags from both, and a fault leaves each its own. That
L and G are read by nothing is an inference R26 marks as its own ("No instruction in scope reads L or G",
derived there from R2 and the handler table). Invalid register bytes are decision D4 (log 7), what a faulting
instruction commits is D6 (log 8). -/
def Obligations.FlagsWrittenOnlyByCompare : Prop :=
  (∀ (s : State) (rA rB : Byte), rA.toNat < 8 → rB.toNat < 8 →
    ∃ t, exec (.cmp rA rB) s = .next t ∧ t.flags.exactlyOne = true) ∧
  (∀ (i : Instr) (s t : State), i.mnemonic ≠ .cmp → exec i s = .next t → t.flags = s.flags) ∧
  (∀ (s : State) (rA : Byte) (_ : rA.toNat < 8),
    exec (.jeq rA) s = .next { s with
      pc := if s.flags.e = true then BitVec.ofNat 9 s.x[rA.toNat].toNat else s.pc + 2 } ∧
    exec (.jne rA) s = .next { s with
      pc := if s.flags.e = true then s.pc + 2 else BitVec.ofNat 9 s.x[rA.toNat].toNat }) ∧
  (∀ (i : Instr) (s t : State) (f : Flags), f.e = s.flags.e → exec i s = .next t →
    ∃ u, exec i { s with flags := f } = .next u ∧ u = { t with flags := u.flags } ∧
      (i.mnemonic = .cmp → ¬ TookFault s t → u.flags = t.flags) ∧
      (i.mnemonic ≠ .cmp ∨ TookFault s t → u.flags = f))

/-- The output port: empty at reset, and a PRN that completes appends its register's value (R101); no other
instruction appends (R152, R174); and it is a pure side effect: what was emitted before changes nothing else
(R101). That no fault appends is the spec's decision D6 on fault entry (log 8), not a rule of the source. -/
def Obligations.OutputIsPureSideEffect : Prop :=
  State.reset.out = [] ∧
  (∀ (s : State) (rA : Byte) (_ : rA.toNat < 8),
    ∃ t, exec (.prn rA) s = .next t ∧ t.out = s.out ++ [s.x[rA.toNat]]) ∧
  (∀ (i : Instr) (s : State) (o : List Byte), ∃ (t : State) (d : List Byte),
    exec i s = .next t ∧ t.out = s.out ++ d ∧ exec i { s with out := o } = .next { t with out := o ++ d } ∧
    (i.mnemonic ≠ .prn → d = []) ∧ (s.run = .running → t.run = .faulted → d = []))

/-- Run state and fault record: HLT alone halts; any other instruction leaves the run state or faults; the
fault record changes only on a fault (R28, R31, R152). (What the record holds, `fpc` among it, is the spec's
decision D5, log 6.) -/
def Obligations.RunStateAndFaultFrame : Prop :=
  ∀ (i : Instr) (s t : State), exec i s = .next t →
    (i = .hlt → t.run = .halted) ∧
    (i ≠ .hlt → t.run = s.run ∨ t.run = .faulted) ∧
    (t.run = .faulted → s.run ≠ .faulted → t.fault.fpc = s.pc) ∧
    (t.run ≠ .faulted → t.fault = s.fault)

/-- Fault entry is precise (R163; decision D6, log 8, and the record's form D5, log 6): whichever step faults,
by fetch or by an instruction, only the run state and the record change, fpc is the faulting instruction's
address, and no further step is enabled. -/
def Obligations.FaultEntryIsPrecise : Prop :=
  ∀ s t : State, step s = .next t → t.run = .faulted →
    t = s.faulted t.fault.cause t.fault.info ∧ step t = .fault .faulted

/-- The causes that can be raised, with their info, are those of R161's table (decisions D4, D5, logs 7, 6); in
every state, reachable or not, the cause is one of the three and never UnsupportedArithmeticOperation (R116,
R167; decision D25, log 22). The premise pc ≤ 256 is part of the invariant that `StepKeepsInvariant` states. -/
def Obligations.RaisedCausesAreTheTables : Prop :=
  (∀ s t : State, s.pc.toNat ≤ 256 → step s = .next t → t.run = .faulted → t.fault.legal) ∧
  (∀ s t : State, step s = .next t → t.run = .faulted →
    t.fault.cause = .unknownOpcode ∨ t.fault.cause = .memoryOutOfRange ∨
    t.fault.cause = .invalidRegisterIndex)

/-- Which instructions reach memory for data (R42, R124): all but the four stack instructions neither read nor
write it (a different memory leads to the same state with that memory); POP and RET read the one cell at SP
and write none; PUSH and CALL read none and write one: under any other memory `m` they go to the same state
but for the memory, which is `m` off the address stored to (`storeAddress`) and holds the same byte on it; where
they take a fault (decision D6, log 8) they write none. -/
def Obligations.DataAccessOnlyByStackInstructions : Prop :=
  (∀ (i : Instr) (s t : State) (m : Memory), i.mnemonic ∉ [.push, .pop, .call, .ret] → exec i s = .next t →
    t.mem = s.mem ∧ exec i { s with mem := m } = .next { t with mem := m }) ∧
  (∀ (i : Instr) (s t : State) (m : Memory), i.mnemonic ∈ [.pop, .ret] →
    m.get s.x[7].toNat = s.mem.get s.x[7].toNat → exec i s = .next t →
    t.mem = s.mem ∧ exec i { s with mem := m } = .next { t with mem := m }) ∧
  (∀ (i : Instr) (s t : State) (m : Memory), i.mnemonic ∈ [.push, .call] → exec i s = .next t →
    (TookFault s t → t.mem = s.mem ∧ exec i { s with mem := m } = .next { t with mem := m }) ∧
    (¬ TookFault s t → ∃ (a : Nat) (u : State), storeAddress i s = some a ∧
      exec i { s with mem := m } = .next u ∧ u = { t with mem := u.mem } ∧
      u.mem.get a = t.mem.get a ∧ (∀ b, b ≠ a → u.mem.get b = m.get b) ∧
      (∀ b, b ≠ a → t.mem.get b = s.mem.get b)))

/-- The program counter never wraps (R25; the ninth bit is decision D8, log 10; HLT's advance is D10, log 12):
from an address 0..256 a step that does not fault leaves pc at p + len for an instruction that completes
normally (so at most 256), at a byte value for a jump, and a running machine at 256 faults
MemoryOutOfRange(256). -/
def Obligations.PcNeverWraps : Prop :=
  (∀ (s t : State) (m : Mnemonic), s.pc.toNat ≤ 256 → step s = .next t → t.run ≠ .faulted →
    defaultConfig.opcodeOf m = s.mem.get s.pc.toNat →
    t.pc.toNat ≤ 256 ∧
    (m ∈ [.ldi, .prn, .add, .mul, .cmp, .push, .pop, .hlt] → t.pc.toNat = s.pc.toNat + m.length) ∧
    (m ∈ [.jmp, .call, .ret] → t.pc.toNat ≤ 255) ∧
    (m ∈ [.jeq, .jne] → t.pc.toNat ≤ 255 ∨ t.pc.toNat = s.pc.toNat + 2)) ∧
  (∀ s : State, s.run = .running → s.pc.toNat = 256 → step s = .next (s.faulted .memoryOutOfRange 256))

/-! ### Rules that relate instructions -/

/-- CMP with swapped operands flips Less and Greater and preserves Equal (R115). -/
def Obligations.CmpSwapFlipsLessAndGreater : Prop :=
  ∀ (s : State) (rA rB : Byte), rA.toNat < 8 → rB.toNat < 8 →
    ∃ t u, exec (.cmp rA rB) s = .next t ∧ exec (.cmp rB rA) s = .next u ∧
      u.flags = { e := t.flags.e, l := t.flags.g, g := t.flags.l }

/-- JEQ and JNE are complementary (R133): with Equal set JEQ goes to the register's value and JNE to p + 2, and
conversely with Equal clear. -/
def Obligations.JeqJneComplementary : Prop :=
  ∀ (s : State) (rA : Byte) (_ : rA.toNat < 8), ∃ t u,
    exec (.jeq rA) s = .next t ∧ exec (.jne rA) s = .next u ∧
    (s.flags.e = true → t.pc.toNat = s.x[rA.toNat].toNat ∧ u.pc = s.pc + 2) ∧
    (s.flags.e = false → t.pc = s.pc + 2 ∧ u.pc.toNat = s.x[rA.toNat].toNat)

/-- PUSH then POP (R123): the popped register takes exactly the value pushed and SP is as before; with r = R7 the
value pushed is SP - 1, with r' = R7 the final SP is the popped value plus 1 (those two clauses rest on
decision D23, log 15). -/
def Obligations.PushPopRestores : Prop :=
  (∀ (s : State) (rA rB : Byte) (_ : rA.toNat < 8) (_ : rB.toNat < 7), 1 ≤ s.x[7].toNat → ∃ t u,
    exec (.push rA) s = .next t ∧ exec (.pop rB) t = .next u ∧ u.run = s.run ∧
    u.x = s.x.set rB.toNat (if rA.toNat = 7 then s.x[7] - 1 else s.x[rA.toNat])) ∧
  (∀ (s : State) (rA : Byte) (_ : rA.toNat < 8), 1 ≤ s.x[7].toNat →
    (if rA.toNat = 7 then s.x[7] - 1 else s.x[rA.toNat]).toNat ≤ 254 → ∃ t u,
    exec (.push rA) s = .next t ∧ exec (.pop 7) t = .next u ∧ u.run = s.run ∧
    u.x = s.x.set 7 ((if rA.toNat = 7 then s.x[7] - 1 else s.x[rA.toNat]) + 1))

/-- CALL then RET (R143): a CALL that does not fault, then any state with SP and the cell at SP as the CALL left
them, then RET, returns to p + 2 and restores SP. The conditions, and that SP is then also restored, are the
sentence R143 marks as its own inference from R141 and R142. Which CALLs do not fault rests on decisions D4 and
D9 (logs 7, 11). -/
def Obligations.CallRetReturns : Prop :=
  ∀ (s : State) (rA : Byte), rA.toNat < 8 → s.pc.toNat + 2 ≤ 255 → 1 ≤ s.x[7].toNat →
    ∃ t, exec (.call rA) s = .next t ∧ t.run = s.run ∧
      ∀ u : State, u.x[7] = t.x[7] → u.mem.get u.x[7].toNat = t.mem.get t.x[7].toNat →
        ∃ v, exec .ret u = .next v ∧ v.pc.toNat = s.pc.toNat + 2 ∧ v.x[7] = s.x[7]

/-- The stack and call-frame aliasing hazard (R187): RET jumps to mem[SP] whatever wrote it; so CALL, PUSH, RET
without a POP jumps to the value pushed and leaves the return address on the stack. -/
def Obligations.RetJumpsToWhateverIsOnTop : Prop :=
  (∀ s : State, s.x[7].toNat ≤ 254 →
    ∃ t, exec .ret s = .next t ∧ t.pc.toNat = (s.mem.get s.x[7].toNat).toNat) ∧
  (∀ (s : State) (rA rB : Byte) (_ : rA.toNat < 8) (_ : rB.toNat < 8), s.pc.toNat + 2 ≤ 255 →
    2 ≤ s.x[7].toNat → ∃ t u v,
    exec (.call rA) s = .next t ∧ exec (.push rB) t = .next u ∧ exec .ret u = .next v ∧
    v.pc.toNat = (u.mem.get u.x[7].toNat).toNat ∧
    (rB.toNat ≠ 7 → v.pc.toNat = s.x[rB.toNat].toNat) ∧
    v.x[7] = s.x[7] - 1 ∧ (v.mem.get v.x[7].toNat).toNat = s.pc.toNat + 2)

/-- A stack write is seen by the very next fetch (R52, R185): a PUSH whose cell is the byte right after the
PUSH makes the next step execute the value pushed: HLT's byte halts, a byte that is no opcode faults with
that byte. (The opcode bytes rest on decision D2, log 2; the pushed value of R7 on D23, log 15; pc after HLT
on D10, log 12; the fault record and that a fault commits nothing on D5 and D6, logs 6 and 8.) -/
def Obligations.StackWriteSeenByNextFetch : Prop :=
  ∀ (s : State) (rA : Byte) (_ : rA.toNat < 8), s.run = .running → BytesAtPc s (encode (.push rA)) →
    s.x[7].toNat = s.pc.toNat + 3 → ∃ t, step s = .next t ∧
      ∀ v : Byte, v = (if rA.toNat = 7 then s.x[7] - 1 else s.x[rA.toNat]) →
        (v = defaultConfig.opcodeOf .hlt → ∃ u, step t = .next u ∧ u.run = .halted ∧
          u.pc.toNat = s.pc.toNat + 3) ∧
        ((∀ m, defaultConfig.opcodeOf m ≠ v) → step t = .next (t.faulted .unknownOpcode v.toNat))

/-- Flags persist (R186): over any number of steps in which no CMP is executed the flags stay, and JEQ and JNE
then read them. (Which byte is CMP's is the configuration's, log 2.) -/
def Obligations.FlagsPersistUntilNextCompare : Prop :=
  ∀ (k : Nat) (s t : State),
    (∀ (j : Nat) (u : State), j < k → Host.Core.run Sys2Proof.core j s = .next u →
      u.mem.get u.pc.toNat ≠ defaultConfig.opcodeOf .cmp) →
    Host.Core.run Sys2Proof.core k s = .next t →
    t.flags = s.flags ∧
    ∀ (rA : Byte) (_ : rA.toNat < 8),
      exec (.jeq rA) t = .next { t with
        pc := if s.flags.e = true then BitVec.ofNat 9 t.x[rA.toNat].toNat else t.pc + 2 } ∧
      exec (.jne rA) t = .next { t with
        pc := if s.flags.e = true then t.pc + 2 else BitVec.ofNat 9 t.x[rA.toNat].toNat }

/-- Runaway execution is legal (R130, R189): a JMP to its own address runs forever, with no watchdog, and the
state stays the same after any number of steps. (The opcode byte rests on decision D2, log 2.) -/
def Obligations.SelfJumpRunsForever : Prop :=
  ∀ (s : State) (rA : Byte) (_ : rA.toNat < 8), s.run = .running → BytesAtPc s (encode (.jmp rA)) →
    s.x[rA.toNat].toNat = s.pc.toNat → ∀ k : Nat, Host.Core.run Sys2Proof.core k s = .next s

/-! ### Reset, boot and the host's ports -/

/-- Reset (R34, R180): memory 0, SP = 0xF4, pc = 0, Running, output empty are the source's; R0..R6 = 0 (decision
D11, log 4), flags None (D12, log 5) and the fault record (None, 0, 0) (D5, log 6) are the spec's own
choices. -/
def Obligations.ResetState : Prop :=
  (∀ a, State.reset.mem.get a = 0) ∧ State.reset.x[7] = 0xF4 ∧ State.reset.pc.toNat = 0 ∧
  State.reset.run = .running ∧ State.reset.out = [] ∧
  (∀ r : Reg, r ≠ 7 → State.reset.x[r] = 0) ∧
  State.reset.flags = { e := false, l := false, g := false } ∧
  State.reset.fault.cause = .none ∧ State.reset.fault.cause.code = 0 ∧
  State.reset.fault.fpc.toNat = 0 ∧ State.reset.fault.info = 0

/-- Boot (R180, R182): a program of n ≤ 256 bytes stands at 0..n-1, every other cell is 0, everything else is as
reset leaves it, and no step has been issued; a longer program starts no engine (decision D16, log 21; the
other reset values rest on D5, D11, D12, logs 6, 4, 5). -/
def Obligations.BootLoadsProgram : Prop :=
  (∀ program : List Byte, program.length ≤ 256 → ∃ h, boot program = some h ∧ h.started = false ∧
    (∀ a, h.core.mem.get a = (program[a]?).getD 0) ∧
    h.core = { State.reset with mem := h.core.mem }) ∧
  (∀ program : List Byte, 256 < program.length → boot program = none)

/-- The load port (R54, R182): before the first step LOAD(a, byte) writes that cell and nothing else; after a
step the host has no such move (decision D13, log 19). -/
def Obligations.HostLoadOnlyBeforeFirstStep : Prop :=
  (∀ (h : Session) (a v : Byte), h.started = false → ∃ g, hostMove h (.load a v) = some g ∧
    g.started = false ∧ g.core.mem.get a.toNat = v ∧
    (∀ b, b ≠ a.toNat → g.core.mem.get b = h.core.mem.get b) ∧ g.core = { h.core with mem := g.core.mem }) ∧
  (∀ (h : Session) (a v : Byte), h.started = true → hostMove h (.load a v) = none) ∧
  (∀ h g : Session, hostMove h .step = some g → g.started = true ∧ step h.core = .next g.core)

/-- Only RESET leaves Halted or Faulted (R151, R170, R181; decision D24): once the engine has been stepped and
has stopped, every host move that exists is RESET, and RESET is always there and performs reset afresh. -/
def Obligations.OnlyResetLeavesAStop : Prop :=
  (∀ (h g : Session) (mv : HostMove), h.started = true → h.core.run ≠ .running →
    hostMove h mv = some g → mv = .reset) ∧
  (∀ h : Session, ∃ g, hostMove h .reset = some g ∧ g.started = false ∧ g.core = State.reset)

/-! ### Invariants and memory -/

/-- The invariant holds at reset. -/
def Obligations.ResetMeetsInvariant : Prop := State.reset.Inv

/-- Every step keeps the invariant, from every state that meets it: memory canonical and inside 0..255, pc in
0..256 (R25), one of the four flag states (R27), and the fault record in step with the run state (R31, R161).
The record's form and the ninth bit of pc are decisions D5 and D8 (logs 6, 10). -/
def Obligations.StepKeepsInvariant : Prop :=
  ∀ s t : State, s.Inv → step s = .next t → t.Inv

/-- Every move of the host keeps the invariant, and a booted engine meets it (R178, R180). -/
def Obligations.HostMovesKeepInvariant : Prop :=
  (∀ (h g : Session) (mv : HostMove), h.core.Inv → hostMove h mv = some g → g.core.Inv) ∧
  (∀ (program : List Byte) (h : Session), boot program = some h → h.core.Inv)

/-- Two canonical memories that read the same at every address are the same data (R40; the form is log 16). -/
def Obligations.EqualReadsEqualMemories : Prop :=
  ∀ m n : Memory, m.wf → n.wf → (∀ a, m.get a = n.get a) → m = n

/-- A memory access (R41): at 0..255 a read gives the cell and a write changes that cell alone; anywhere else
both raise MemoryOutOfRange with that address, which is never reduced modulo 256. -/
def Obligations.MemoryAccessRange : Prop :=
  (∀ (s : State) (a : Int) (v : Byte), 0 ≤ a → a ≤ 255 →
    memRead s a = .ok (s.mem.get a.toNat) ∧
    ∃ t, memWrite s a v = .ok t ∧ t.mem.get a.toNat = v ∧
      (∀ b, b ≠ a.toNat → t.mem.get b = s.mem.get b) ∧ t = { s with mem := t.mem }) ∧
  (∀ (s : State) (a : Int) (v : Byte), a < 0 ∨ 255 < a →
    memRead s a = .error ⟨.memoryOutOfRange, a⟩ ∧ memWrite s a v = .error ⟨.memoryOutOfRange, a⟩)
end

