-- ==== Sys2Proof/Laws/Decode.lean ====
section
/-! SUPPORT. The opcode map and the decoder's first byte. -/

namespace Sys2Proof

theorem mem_allMnemonics (m : Mnemonic) : m ∈ allMnemonics := by
  cases m <;> simp [allMnemonics]

/-- The default opcode map meets what R64 asks of every configuration. -/
theorem defaultConfig_legal : defaultConfig.Legal where
  injective m n h := by cases m <;> cases n <;> first | rfl | exact absurd h (by decide)
  ldi := rfl
  prn := rfl
  hlt := rfl

/-- The map read backwards finds the mnemonic whose opcode the byte is. -/
theorem mnemonicOf_opcodeOf (c : Config) (hc : c.Legal) (m : Mnemonic) :
    mnemonicOf c (c.opcodeOf m) = some m := by
  have hsome : (mnemonicOf c (c.opcodeOf m)).isSome := by
    simpa [mnemonicOf] using ⟨m, mem_allMnemonics m, rfl⟩
  obtain ⟨n, hn⟩ := Option.isSome_iff_exists.mp hsome
  have heq : c.opcodeOf n = c.opcodeOf m := by
    simpa [mnemonicOf] using List.find?_some hn
  rw [hn, hc.injective n m heq]

/-- A byte finds a mnemonic exactly when it is that mnemonic's opcode. -/
theorem mnemonicOf_eq_some (c : Config) (hc : c.Legal) (op : Byte) (m : Mnemonic) :
    mnemonicOf c op = some m ↔ c.opcodeOf m = op := by
  constructor
  · intro h
    simpa [mnemonicOf] using List.find?_some h
  · rintro rfl
    exact mnemonicOf_opcodeOf c hc m

/-- A byte finds no mnemonic exactly when it is no mnemonic's opcode (R66). -/
theorem mnemonicOf_eq_none (c : Config) (op : Byte) :
    mnemonicOf c op = none ↔ ∀ m, c.opcodeOf m ≠ op := by
  simp [mnemonicOf, mem_allMnemonics]

end Sys2Proof
end

