-- ==== Sys2Proof/Laws/Memory.lean ====
section
/-! SUPPORT. Memory: reading after writing, and every memory operation keeps the canonical form. -/

namespace Sys2Proof.Machine

/-- The number of cells as a numeral, for omega. -/
theorem memSize_eq : memSize = 256 := rfl

/-! ### Reading after writing -/

theorem lookupCell_insertCell_self (a : Nat) (v : Byte) (cs : List Host.Cell)
    (h : ∀ c ∈ cs, c.1 ≠ a) : lookupCell a (insertCell (a, v) cs) = v := by
  induction cs with
  | nil => simp [insertCell, lookupCell]
  | cons d rest ih =>
    simp only [List.mem_cons, forall_eq_or_imp] at h
    by_cases hlt : a < d.1
    · simp [insertCell, lookupCell, hlt]
    · simp [insertCell, lookupCell, hlt, h.1, ih h.2]

theorem lookupCell_insertCell_ne (a b : Nat) (v : Byte) (cs : List Host.Cell) (hab : a ≠ b) :
    lookupCell b (insertCell (a, v) cs) = lookupCell b cs := by
  induction cs with
  | nil => simp [insertCell, lookupCell, hab]
  | cons d rest ih =>
    by_cases hlt : a < d.1
    · simp [insertCell, lookupCell, hlt, hab]
    · simp [insertCell, lookupCell, hlt, ih]

theorem lookupCell_filter_ne (a b : Nat) (cs : List Host.Cell) (hab : a ≠ b) :
    lookupCell b (cs.filter (fun c => c.1 ≠ a)) = lookupCell b cs := by
  induction cs with
  | nil => rfl
  | cons d rest ih =>
    by_cases hd : d.1 = a
    · have hb : d.1 ≠ b := hd ▸ hab
      simpa [List.filter_cons, hd, lookupCell, hab] using ih
    · by_cases hb : d.1 = b
      · simp [lookupCell, hb, Ne.symm hab]
      · simpa [List.filter_cons, hd, lookupCell, hb] using ih

theorem lookupCell_absent (a : Nat) (cs : List Host.Cell) (h : ∀ c ∈ cs, c.1 ≠ a) :
    lookupCell a cs = Memory.unlisted := by
  induction cs with
  | nil => rfl
  | cons d rest ih =>
    simp only [List.mem_cons, forall_eq_or_imp] at h
    simp [lookupCell, h.1, ih h.2]

theorem Memory.get_set_self (m : Memory) (a : Nat) (v : Byte) : (m.set a v).get a = v := by
  have habs : ∀ c ∈ m.cells.filter (fun c => c.1 ≠ a), c.1 ≠ a := by
    intro c hc; simpa using (List.mem_filter.mp hc).2
  by_cases hv : v = Memory.unlisted
  · simpa [Memory.set, Memory.get, hv] using lookupCell_absent a _ habs
  · simpa [Memory.set, Memory.get, hv] using lookupCell_insertCell_self a v _ habs

theorem Memory.get_set_ne (m : Memory) (a b : Nat) (v : Byte) (hab : a ≠ b) :
    (m.set a v).get b = m.get b := by
  by_cases hv : v = Memory.unlisted
  · simpa [Memory.set, Memory.get, hv] using lookupCell_filter_ne a b m.cells hab
  · simpa [Memory.set, Memory.get, hv, lookupCell_insertCell_ne a b v _ hab] using
      lookupCell_filter_ne a b m.cells hab

/-- What a read gives after a write (R48). -/
theorem Memory.get_set (m : Memory) (a b : Nat) (v : Byte) :
    (m.set a v).get b = if a = b then v else m.get b := by
  by_cases hab : a = b
  · subst hab; simp [Memory.get_set_self]
  · simp [hab, Memory.get_set_ne]

/-! ### The canonical form -/

theorem mem_insertCell (c d : Host.Cell) (cs : List Host.Cell) :
    d ∈ insertCell c cs ↔ d = c ∨ d ∈ cs := by
  induction cs with
  | nil => simp [insertCell]
  | cons e rest ih =>
    by_cases hlt : c.1 < e.1
    · simp [insertCell, hlt]
    · simp [insertCell, hlt, ih]; tauto

theorem pairwise_insertCell (c : Host.Cell) (cs : List Host.Cell)
    (hs : cs.Pairwise (fun d e => d.1 < e.1)) (hne : ∀ d ∈ cs, d.1 ≠ c.1) :
    (insertCell c cs).Pairwise (fun d e => d.1 < e.1) := by
  induction cs with
  | nil => simp [insertCell]
  | cons e rest ih =>
    have he := List.pairwise_cons.mp hs
    simp only [List.mem_cons, forall_eq_or_imp] at hne
    by_cases hlt : c.1 < e.1
    · simp only [insertCell, if_pos hlt, List.pairwise_cons, List.mem_cons, forall_eq_or_imp]
      exact ⟨⟨hlt, fun d hd => hlt.trans (he.1 d hd)⟩, he⟩
    · simp only [insertCell, if_neg hlt, List.pairwise_cons]
      refine ⟨fun d hd => ?_, ih he.2 hne.2⟩
      rcases (mem_insertCell c d rest).mp hd with rfl | hd
      · have := hne.1; omega
      · exact he.1 d hd

/-- A write inside memory keeps the canonical form. -/
theorem Memory.wf_set (m : Memory) (a : Nat) (v : Byte) (ha : a < memSize) (h : m.wf) :
    (m.set a v).wf := by
  have hp : (m.cells.filter (fun c => c.1 ≠ a)).Pairwise (fun d e => d.1 < e.1) := h.1.filter _
  have hm : ∀ c ∈ m.cells.filter (fun c => c.1 ≠ a), c.1 < memSize ∧ c.2 ≠ Memory.unlisted :=
    fun c hc => h.2 c (List.mem_filter.mp hc).1
  have hne : ∀ c ∈ m.cells.filter (fun c => c.1 ≠ a), c.1 ≠ a := by
    intro c hc; simpa using (List.mem_filter.mp hc).2
  by_cases hv : v = Memory.unlisted
  · simpa only [Memory.wf, Memory.set, if_pos hv] using ⟨hp, hm⟩
  · simp only [Memory.wf, Memory.set, if_neg hv]
    refine ⟨pairwise_insertCell _ _ hp hne, fun c hc => ?_⟩
    rcases (mem_insertCell _ c _).mp hc with rfl | hc
    · exact ⟨ha, hv⟩
    · exact hm c hc

/-- Storing bytes at consecutive addresses keeps the canonical form. -/
theorem Memory.wf_setBytes (bs : List Byte) : ∀ (m : Memory) (a : Nat), m.wf → (m.setBytes a bs).wf := by
  induction bs with
  | nil => exact fun m a h => h
  | cons b rest ih =>
    intro m a h
    by_cases ha : a < memSize
    · simpa [Memory.setBytes, ha] using ih _ (a + 1) (m.wf_set a b ha h)
    · simpa [Memory.setBytes, ha] using ih _ (a + 1) h

/-- A data write keeps the canonical form. -/
theorem memWrite_keeps_wf (s t : State) (a : Int) (v : Byte) (hw : memWrite s a v = .ok t)
    (h : s.mem.wf) : t.mem.wf := by
  unfold memWrite at hw
  split at hw
  · next ha =>
    cases hw
    exact Memory.wf_set _ _ _ (by have := ha.1; have := ha.2; omega) h
  · cases hw

/-- What a read gives after bytes are stored from `a` up. -/
theorem Memory.get_setBytes (bs : List Byte) : ∀ (m : Memory) (a b : Nat),
    (m.setBytes a bs).get b =
      if a ≤ b ∧ b < memSize then (bs[b - a]?).getD (m.get b) else m.get b := by
  induction bs with
  | nil => intro m a b; simp [Memory.setBytes]
  | cons v rest ih =>
    intro m a b
    rw [Memory.setBytes, ih]
    by_cases hab : b = a
    · subst hab
      by_cases hb : b < memSize
      · simp [hb, Memory.get_set_self]
      · simp [hb]
    · have hne : a ≠ b := fun h => hab h.symm
      have hget : (if a < memSize then m.set a v else m).get b = m.get b := by
        by_cases ha : a < memSize
        · simp [ha, Memory.get_set_ne _ _ _ _ hne]
        · simp [ha]
      rw [hget]
      by_cases hle : a ≤ b ∧ b < memSize
      · have h1 : a + 1 ≤ b ∧ b < memSize := ⟨by omega, hle.2⟩
        have h2 : b - a = (b - (a + 1)) + 1 := by omega
        rw [if_pos h1, if_pos hle, h2, List.getElem?_cons_succ]
      · have h1 : ¬ (a + 1 ≤ b ∧ b < memSize) := fun h => hle ⟨by omega, h.2⟩
        rw [if_neg h1, if_neg hle]

end Sys2Proof.Machine
end

