-- ==== Sys2Proof/Laws/State.lean ====
section
/-! SUPPORT. What each update of the state leaves in each field: one lemma per field per update. -/

namespace Sys2Proof.Machine

section writeReg
variable (r : Reg) (v : Byte) (s : State)

@[simp] theorem writeReg_mem : (writeReg r v s).mem = s.mem := rfl
@[simp] theorem writeReg_x : (writeReg r v s).x = s.x.set r v := rfl
@[simp] theorem writeReg_pc : (writeReg r v s).pc = s.pc := rfl
@[simp] theorem writeReg_flags : (writeReg r v s).flags = s.flags := rfl
@[simp] theorem writeReg_run : (writeReg r v s).run = s.run := rfl
@[simp] theorem writeReg_fault : (writeReg r v s).fault = s.fault := rfl
@[simp] theorem writeReg_out : (writeReg r v s).out = s.out := rfl

end writeReg

section setFlags
variable (f : Flags) (s : State)

@[simp] theorem setFlags_mem : (setFlags f s).mem = s.mem := rfl
@[simp] theorem setFlags_x : (setFlags f s).x = s.x := rfl
@[simp] theorem setFlags_pc : (setFlags f s).pc = s.pc := rfl
@[simp] theorem setFlags_flags : (setFlags f s).flags = f := rfl
@[simp] theorem setFlags_run : (setFlags f s).run = s.run := rfl
@[simp] theorem setFlags_fault : (setFlags f s).fault = s.fault := rfl
@[simp] theorem setFlags_out : (setFlags f s).out = s.out := rfl

end setFlags

section advance
variable (n : Nat) (s : State)

@[simp] theorem advance_mem : (advance n s).mem = s.mem := rfl
@[simp] theorem advance_x : (advance n s).x = s.x := rfl
@[simp] theorem advance_pc : (advance n s).pc = s.pc + BitVec.ofNat 9 n := rfl
@[simp] theorem advance_flags : (advance n s).flags = s.flags := rfl
@[simp] theorem advance_run : (advance n s).run = s.run := rfl
@[simp] theorem advance_fault : (advance n s).fault = s.fault := rfl
@[simp] theorem advance_out : (advance n s).out = s.out := rfl

end advance

section jumpTo
variable (v : Byte) (s : State)

@[simp] theorem jumpTo_mem : (jumpTo v s).mem = s.mem := rfl
@[simp] theorem jumpTo_x : (jumpTo v s).x = s.x := rfl
@[simp] theorem jumpTo_pc : (jumpTo v s).pc = v.zeroExtend 9 := rfl
@[simp] theorem jumpTo_flags : (jumpTo v s).flags = s.flags := rfl
@[simp] theorem jumpTo_run : (jumpTo v s).run = s.run := rfl
@[simp] theorem jumpTo_fault : (jumpTo v s).fault = s.fault := rfl
@[simp] theorem jumpTo_out : (jumpTo v s).out = s.out := rfl

end jumpTo

section emit
variable (v : Byte) (s : State)

@[simp] theorem emit_mem : (emit v s).mem = s.mem := rfl
@[simp] theorem emit_x : (emit v s).x = s.x := rfl
@[simp] theorem emit_pc : (emit v s).pc = s.pc := rfl
@[simp] theorem emit_flags : (emit v s).flags = s.flags := rfl
@[simp] theorem emit_run : (emit v s).run = s.run := rfl
@[simp] theorem emit_fault : (emit v s).fault = s.fault := rfl
@[simp] theorem emit_out : (emit v s).out = s.out ++ [v] := rfl

end emit

section haltRun
variable (s : State)

@[simp] theorem haltRun_mem : (haltRun s).mem = s.mem := rfl
@[simp] theorem haltRun_x : (haltRun s).x = s.x := rfl
@[simp] theorem haltRun_pc : (haltRun s).pc = s.pc := rfl
@[simp] theorem haltRun_flags : (haltRun s).flags = s.flags := rfl
@[simp] theorem haltRun_run : (haltRun s).run = .halted := rfl
@[simp] theorem haltRun_fault : (haltRun s).fault = s.fault := rfl
@[simp] theorem haltRun_out : (haltRun s).out = s.out := rfl

end haltRun

section takeFault
variable (r : Raised) (s : State)

@[simp] theorem takeFault_mem : (takeFault r s).mem = s.mem := rfl
@[simp] theorem takeFault_x : (takeFault r s).x = s.x := rfl
@[simp] theorem takeFault_pc : (takeFault r s).pc = s.pc := rfl
@[simp] theorem takeFault_flags : (takeFault r s).flags = s.flags := rfl
@[simp] theorem takeFault_run : (takeFault r s).run = .faulted := rfl
@[simp] theorem takeFault_fault : (takeFault r s).fault = ⟨r.cause, s.pc, r.info⟩ := rfl
@[simp] theorem takeFault_out : (takeFault r s).out = s.out := rfl

end takeFault

/-! ### Reading a register after an update -/

@[simp] theorem readReg_writeReg_self (s : State) (r : Reg) (v : Byte) :
    readReg (writeReg r v s) r = v := by simp [readReg]

theorem readReg_writeReg (s : State) (r q : Reg) (v : Byte) :
    readReg (writeReg r v s) q = if r = q then v else readReg s q := by
  simp [readReg, Vector.getElem_set, Fin.ext_iff]

theorem readReg_writeReg_ne (s : State) (r q : Reg) (v : Byte) (h : r ≠ q) :
    readReg (writeReg r v s) q = readReg s q := by
  rw [readReg_writeReg, if_neg h]

@[simp] theorem readReg_setFlags (s : State) (f : Flags) (q : Reg) :
    readReg (setFlags f s) q = readReg s q := rfl
@[simp] theorem readReg_advance (s : State) (n : Nat) (q : Reg) :
    readReg (advance n s) q = readReg s q := rfl
@[simp] theorem readReg_jumpTo (s : State) (v : Byte) (q : Reg) :
    readReg (jumpTo v s) q = readReg s q := rfl
@[simp] theorem readReg_emit (s : State) (v : Byte) (q : Reg) :
    readReg (emit v s) q = readReg s q := rfl
@[simp] theorem readReg_haltRun (s : State) (q : Reg) :
    readReg (haltRun s) q = readReg s q := rfl
@[simp] theorem readReg_takeFault (s : State) (r : Raised) (q : Reg) :
    readReg (takeFault r s) q = readReg s q := rfl

end Sys2Proof.Machine
end

