-- ==== Sys2Proof/Laws/Ops.lean ====
section
/-! SUPPORT. One lemma per shared operation that says everything it can do. -/

namespace Sys2Proof.Machine

/-! ### Sequencing effects that can raise -/

@[simp] theorem ok_bind {α β : Type} (a : α) (f : α → Except Raised β) :
    ((Except.ok a : Except Raised α) >>= f) = f a := rfl

@[simp] theorem error_bind {α β : Type} (e : Raised) (f : α → Except Raised β) :
    ((Except.error e : Except Raised α) >>= f) = Except.error e := rfl

@[simp] theorem pure_ok {α : Type} (a : α) : (pure a : Except Raised α) = Except.ok a := rfl

/-- A sequence completes exactly when both parts do. -/
theorem bind_eq_ok {α β : Type} (r : Except Raised α) (f : α → Except Raised β) (b : β) :
    (r >>= f) = .ok b ↔ ∃ a, r = .ok a ∧ f a = .ok b := by
  cases r <;> simp

/-- A sequence raises what its first part raises, or what its second part raises. -/
theorem bind_eq_error {α β : Type} (r : Except Raised α) (f : α → Except Raised β) (e : Raised) :
    (r >>= f) = .error e ↔ r = .error e ∨ ∃ a, r = .ok a ∧ f a = .error e := by
  cases r <;> simp

/-! ### Committing -/

@[simp] theorem settle_ok (s t : State) : settle s (.ok t) = .next t := rfl

@[simp] theorem settle_error (s : State) (r : Raised) : settle s (.error r) = .next (takeFault r s) := rfl

/-- A committed effect is the effect's own state, or the fault taken on the state before it. -/
theorem settle_eq_next (s t : State) (r : Except Raised State) :
    settle s r = .next t ↔ r = .ok t ∨ ∃ e, r = .error e ∧ takeFault e s = t := by
  cases r <;> simp [settle]

/-! ### Operands -/

theorem registerOperand_ok (b : Byte) (h : b.toNat < 8) : registerOperand b = .ok ⟨b.toNat, h⟩ := by
  simp [registerOperand, h]

theorem registerOperand_error (b : Byte) (h : ¬ b.toNat < 8) :
    registerOperand b = .error ⟨.invalidRegisterIndex, b.toNat⟩ := by
  simp [registerOperand, h]

theorem registerOperands_ok (rA rB : Byte) (hA : rA.toNat < 8) (hB : rB.toNat < 8) :
    registerOperands rA rB = .ok (⟨rA.toNat, hA⟩, ⟨rB.toNat, hB⟩) := by
  simp [registerOperands, registerOperand_ok, hA, hB]

theorem registerOperands_error_first (rA rB : Byte) (hA : ¬ rA.toNat < 8) :
    registerOperands rA rB = .error ⟨.invalidRegisterIndex, rA.toNat⟩ := by
  simp [registerOperands, registerOperand_error, hA]

theorem registerOperands_error_second (rA rB : Byte) (hA : rA.toNat < 8) (hB : ¬ rB.toNat < 8) :
    registerOperands rA rB = .error ⟨.invalidRegisterIndex, rB.toNat⟩ := by
  simp [registerOperands, registerOperand_ok, registerOperand_error, hA, hB]

/-! ### Memory accesses at an address -/

theorem inMemory_toNat (b : Byte) : InMemory (b.toNat : Int) :=
  ⟨Int.natCast_nonneg _, by have h := b.isLt; simp only [memSize]; omega⟩

theorem memRead_ok (s : State) (a : Int) (h : InMemory a) : memRead s a = .ok (s.mem.get a.toNat) :=
  if_pos h

theorem memRead_error (s : State) (a : Int) (h : ¬ InMemory a) :
    memRead s a = .error ⟨.memoryOutOfRange, a⟩ := if_neg h

@[simp] theorem memRead_byte (s : State) (b : Byte) :
    memRead s (b.toNat : Int) = .ok (s.mem.get b.toNat) := by
  rw [memRead_ok _ _ (inMemory_toNat b), Int.toNat_natCast]

theorem memWrite_ok (s : State) (a : Int) (v : Byte) (h : InMemory a) :
    memWrite s a v = .ok { s with mem := s.mem.set a.toNat v } := if_pos h

theorem memWrite_error (s : State) (a : Int) (v : Byte) (h : ¬ InMemory a) :
    memWrite s a v = .error ⟨.memoryOutOfRange, a⟩ := if_neg h

@[simp] theorem memWrite_byte (s : State) (b v : Byte) :
    memWrite s (b.toNat : Int) v = .ok { s with mem := s.mem.set b.toNat v } := by
  rw [memWrite_ok _ _ _ (inMemory_toNat b), Int.toNat_natCast]

/-! ### The stack pointer's checked moves -/

theorem decSp_ok (s : State) (h : sp s ≠ 0) : decSp s = .ok (writeReg spIndex (sp s - 1) s) := by
  have hpos : 0 < (sp s).toNat := by
    rcases Nat.eq_zero_or_pos (sp s).toNat with h0 | h0
    · exact absurd (BitVec.eq_of_toNat_eq (by simpa using h0)) h
    · exact h0
  have hlt := (sp s).isLt
  have hin : InMemory ((sp s).toNat - 1 : Int) := ⟨by omega, by simp only [memSize]; omega⟩
  have hval : BitVec.ofInt 8 ((sp s).toNat - 1 : Int) = sp s - 1 := by
    apply BitVec.eq_of_toNat_eq
    simp [BitVec.toNat_ofInt, BitVec.toNat_sub]
    omega
  simp only [decSp, moveSp, if_pos hin, hval]

theorem decSp_error (s : State) (h : sp s = 0) : decSp s = .error ⟨.memoryOutOfRange, -1⟩ := by
  simp [decSp, moveSp, h, InMemory]

theorem incSp_ok (s : State) (h : sp s ≠ 255) : incSp s = .ok (writeReg spIndex (sp s + 1) s) := by
  have hlt : (sp s).toNat < 255 := by
    have h1 := (sp s).isLt
    have h2 : (sp s).toNat ≠ 255 := fun h0 => h (BitVec.eq_of_toNat_eq (by simpa using h0))
    omega
  have hin : InMemory ((sp s).toNat + 1 : Int) := ⟨by omega, by simp only [memSize]; omega⟩
  have hval : BitVec.ofInt 8 ((sp s).toNat + 1 : Int) = sp s + 1 := by
    apply BitVec.eq_of_toNat_eq
    simp [BitVec.toNat_ofInt, BitVec.toNat_add]
    omega
  simp only [incSp, moveSp, if_pos hin, hval]

theorem incSp_error (s : State) (h : sp s = 255) : incSp s = .error ⟨.memoryOutOfRange, 256⟩ := by
  simp [incSp, moveSp, h, InMemory, memSize]

@[simp] theorem sp_writeReg_sp (s : State) (v : Byte) : sp (writeReg spIndex v s) = v := by
  simp [sp]

/-! ### The compare's flags -/

/-- A compare leaves exactly one flag set (R26), Equal, Less or Greater as the unsigned order says. -/
theorem compareFlags_cases (a b : Byte) :
    (a = b ∧ compareFlags a b = ⟨true, false, false⟩) ∨
    (a.toNat < b.toNat ∧ compareFlags a b = ⟨false, true, false⟩) ∨
    (b.toNat < a.toNat ∧ compareFlags a b = ⟨false, false, true⟩) := by
  by_cases h : a = b
  · simp [compareFlags, h]
  · by_cases hlt : a.toNat < b.toNat
    · simp [compareFlags, h, hlt]
    · have hne : a.toNat ≠ b.toNat := fun h0 => h (BitVec.eq_of_toNat_eq h0)
      have hgt : b.toNat < a.toNat := by omega
      simp [compareFlags, h, hlt, hgt]

end Sys2Proof.Machine
end

