-- ==== Sys2Proof/Laws/Engine.lean ====
section
/-! SUPPORT. What a meaning, the fetch window and a step can answer. -/

namespace Sys2Proof.Machine

/-- A committed effect is a next state. -/
theorem settle_isNext (s : State) (r : Except Raised State) : ∃ t, settle s r = .next t := by
  cases r <;> simp

/-- Every instruction answers a next state in every state: its own effect, or the fault it takes. -/
theorem exec_isNext (i : Instr) (s : State) : ∃ t, exec i s = .next t := by
  cases i with
  | hlt => exact ⟨_, rfl⟩
  | ldi rA imm8 => unfold exec execLdi; exact settle_isNext s _
  | prn rA => unfold exec execPrn; exact settle_isNext s _
  | add rA rB => unfold exec execAdd; exact settle_isNext s _
  | mul rA rB => unfold exec execMul; exact settle_isNext s _
  | cmp rA rB => unfold exec execCmp; exact settle_isNext s _
  | push rA => unfold exec execPush; exact settle_isNext s _
  | pop rA => unfold exec execPop; exact settle_isNext s _
  | jmp rA => unfold exec execJmp; exact settle_isNext s _
  | jeq rA => unfold exec execJeq; exact settle_isNext s _
  | jne rA => unfold exec execJne; exact settle_isNext s _
  | call rA => unfold exec execCall; exact settle_isNext s _
  | ret => unfold exec execRet; exact settle_isNext s _

/-! ### The fetch window -/

theorem bytesFrom_length_le (m : Memory) (n : Nat) : ∀ a, (bytesFrom m a n).length ≤ n := by
  induction n with
  | zero => intro a; simp [bytesFrom]
  | succ n ih =>
    intro a
    by_cases ha : a < memSize
    · simpa [bytesFrom, ha] using ih (a + 1)
    · simp [bytesFrom, ha]

theorem bytesFrom_top (m : Memory) (a n : Nat) (h : ¬ a < memSize) : bytesFrom m a n = [] := by
  cases n <;> simp [bytesFrom, h]

theorem fetchWindow_three (s : State) (h : s.pc.toNat + 2 < memSize) :
    fetchWindow s = [s.mem.get s.pc.toNat, s.mem.get (s.pc.toNat + 1), s.mem.get (s.pc.toNat + 2)] := by
  have h0 : s.pc.toNat < memSize := by omega
  have h1 : s.pc.toNat + 1 < memSize := by omega
  simp [fetchWindow, maxInstrLength, bytesFrom, h0, h1, h]

theorem fetchWindow_two (s : State) (h : s.pc.toNat + 2 = memSize) :
    fetchWindow s = [s.mem.get s.pc.toNat, s.mem.get (s.pc.toNat + 1)] := by
  have h0 : s.pc.toNat < memSize := by omega
  have h1 : s.pc.toNat + 1 < memSize := by omega
  have h2 : ¬ s.pc.toNat + 2 < memSize := by omega
  simp [fetchWindow, maxInstrLength, bytesFrom, h0, h1, h2]

theorem fetchWindow_one (s : State) (h : s.pc.toNat + 1 = memSize) :
    fetchWindow s = [s.mem.get s.pc.toNat] := by
  have h0 : s.pc.toNat < memSize := by omega
  have h1 : ¬ s.pc.toNat + 1 < memSize := by omega
  simp [fetchWindow, maxInstrLength, bytesFrom, h0, h1]

theorem fetchWindow_none (s : State) (h : memSize ≤ s.pc.toNat) : fetchWindow s = [] :=
  bytesFrom_top _ _ _ (by omega)

/-! ### The step -/

theorem stepWith_running (c : Config) (s : State) (h : s.run = .running) :
    stepWith c s = stepRunning c s := by simp [stepWith, h]

theorem stepWith_halted (c : Config) (s : State) (h : s.run = .halted) :
    stepWith c s = .fault .halted := by simp [stepWith, h]

theorem stepWith_faulted (c : Config) (s : State) (h : s.run = .faulted) :
    stepWith c s = .fault .faulted := by simp [stepWith, h]

/-- Everything a running step can do: execute the instruction fetched, or take the fault the fetch
raised. -/
theorem stepRunning_cases (c : Config) (s : State) :
    (∃ i, fetch c s = .ok i ∧ stepRunning c s = exec i s) ∨
    (∃ e, fetch c s = .error e ∧ stepRunning c s = .next (takeFault e s)) := by
  cases h : fetch c s with
  | ok i => exact .inl ⟨i, rfl, by simp [stepRunning, h]⟩
  | error e => exact .inr ⟨e, rfl, by simp [stepRunning, h]⟩

/-! ### Runs of several steps -/

theorem run_succ_next (M : Host.Core) (k : Nat) (s t : M.State) (h : M.step s = .next t) :
    M.run (k + 1) s = M.run k t := by rw [Host.Core.run, h]

theorem run_succ_fault (M : Host.Core) (k : Nat) (s : M.State) (r : M.Fault) (h : M.step s = .fault r) :
    M.run (k + 1) s = .fault r := by rw [Host.Core.run, h]

theorem run_succ_refused (M : Host.Core) (k : Nat) (s : M.State) (r : M.Refusal)
    (h : M.step s = .refused r) : M.run (k + 1) s = .refused r := by rw [Host.Core.run, h]

/-- A run of the model's machine whose first step is `step s = next t` goes on from `t`. -/
theorem core_run_succ (k : Nat) (s t : State) (h : step s = .next t) :
    Host.Core.run Sys2Proof.core (k + 1) s = Host.Core.run Sys2Proof.core k t :=
  run_succ_next Sys2Proof.core k s t h

end Sys2Proof.Machine
end

