-- ==== Sys2Proof/Laws/PerInstr.lean ====
section
/-! SUPPORT. Statements about every instruction as syntax, one lemma per constructor. -/

namespace Sys2Proof.Laws.EncodedLength

/-- The encoding has as many bytes as the length table says (R60, R64), under any opcode map. -/
def Statement (i : Instr) : Prop := ∀ c : Config, (encodeWith c i).length = i.mnemonic.length

theorem ldi (rA imm8 : Byte) : Statement (.ldi rA imm8) := fun _ => rfl
theorem prn (rA : Byte) : Statement (.prn rA) := fun _ => rfl
theorem add (rA rB : Byte) : Statement (.add rA rB) := fun _ => rfl
theorem mul (rA rB : Byte) : Statement (.mul rA rB) := fun _ => rfl
theorem cmp (rA rB : Byte) : Statement (.cmp rA rB) := fun _ => rfl
theorem push (rA : Byte) : Statement (.push rA) := fun _ => rfl
theorem pop (rA : Byte) : Statement (.pop rA) := fun _ => rfl
theorem jmp (rA : Byte) : Statement (.jmp rA) := fun _ => rfl
theorem jeq (rA : Byte) : Statement (.jeq rA) := fun _ => rfl
theorem jne (rA : Byte) : Statement (.jne rA) := fun _ => rfl
theorem call (rA : Byte) : Statement (.call rA) := fun _ => rfl
theorem ret : Statement .ret := fun _ => rfl
theorem hlt : Statement .hlt := fun _ => rfl

end Sys2Proof.Laws.EncodedLength
end

