-- ==== Sys2Proof/Tests/Slice0.lean ====
section
/-! SUPPORT. Tests on single steps, and a witness for the hypotheses of every statement that has some.
Expected results come from spec/95_test_vectors.md (the vector's number stands in the test's comment) or
from the rule named there. -/

namespace Sys2Proof.Tests
open Sys2Proof Sys2Proof.Machine

/-- Reset with another pc, some registers and some cells. -/
def st (pc : Pc) (regs : List (Reg × Byte)) (cells : List (Nat × Byte)) : State :=
  { State.reset with
    pc := pc
    x := regs.foldl (fun x r => x.set r.1 r.2) State.reset.x
    mem := cells.foldl (fun m c => m.set c.1 c.2) State.reset.mem }

/-- The next state a step answers, if it answers one. -/
def after (o : Outcome) : Option State :=
  match o with
  | .next t => some t
  | .fault _ => none
  | .refused _ => none

/-- A fault record as the vectors write it: Faulted(cause, fpc, info). -/
def faultOf (o : Outcome) : Option (RunState × Nat × Nat × Int) :=
  (after o).map fun t => (t.run, t.fault.cause.code, t.fault.fpc.toNat, t.fault.info)

/-- Equal, Less, Greater after the step. -/
def elgOf (o : Outcome) : Option (Bool × Bool × Bool) :=
  (after o).map fun t => (t.flags.e, t.flags.l, t.flags.g)

/-! ### WellFormed refuses an ill-formed term for each check -/

theorem test_wf_refuses_rA_byte_8 : (Instr.ldi 8 1).wf = false := by decide
theorem test_wf_refuses_rA_byte_255 : (Instr.push 255).wf = false := by decide
theorem test_wf_refuses_rA_of_two : (Instr.mul 9 0).wf = false := by decide
theorem test_wf_refuses_rB : (Instr.add 0 9).wf = false := by decide
theorem test_wf_takes_any_immediate : (Instr.ldi 7 255).wf = true := by decide
theorem test_wf_takes_no_operands : Instr.ret.wf = true := by decide

/-! ### Words written out from the encoding column of the opcode table (R61, R64) -/

theorem test_decode_LDI : decode [0b10000010, 0b00000111, 0b11111111] = .ok (.ldi 7 255, []) := rfl
theorem test_decode_PRN : decode [0b01000111, 0b00000111, 1] = .ok (.prn 7, [1]) := rfl
theorem test_decode_ADD : decode [0b10100000, 0b00000001, 0b00000010] = .ok (.add 1 2, []) := rfl
theorem test_decode_MUL : decode [0b10100010, 0b00000001, 0b00000010] = .ok (.mul 1 2, []) := rfl
theorem test_decode_CMP : decode [0b10100111, 0b00000001, 0b00000010] = .ok (.cmp 1 2, []) := rfl
theorem test_decode_PUSH : decode [0b01000101, 0b00000011] = .ok (.push 3, []) := rfl
theorem test_decode_POP : decode [0b01000110, 0b00000011] = .ok (.pop 3, []) := rfl
theorem test_decode_JMP : decode [0b01010100, 0b00000011] = .ok (.jmp 3, []) := rfl
theorem test_decode_JEQ : decode [0b01010101, 0b00000011] = .ok (.jeq 3, []) := rfl
theorem test_decode_JNE : decode [0b01010110, 0b00000011] = .ok (.jne 3, []) := rfl
theorem test_decode_CALL : decode [0b01010000, 0b00000011] = .ok (.call 3, []) := rfl
theorem test_decode_RET : decode [0b00010001, 5] = .ok (.ret, [5]) := rfl
theorem test_decode_HLT : decode [0b00000001] = .ok (.hlt, []) := rfl
theorem test_decode_keeps_register_byte_8 : decode [0x47, 8] = .ok (.prn 8, []) := rfl
theorem test_decode_unknown : decode [0xFF, 0, 0] = .error (.unknownOpcode 0xFF) := rfl
theorem test_decode_no_byte : decode [] = .error .noOpcode := rfl
theorem test_decode_missing_first_operand : decode [0x82] = .error (.missingOperand 1) := rfl
theorem test_decode_missing_second_operand : decode [0x82, 0] = .error (.missingOperand 2) := rfl
theorem test_encode_ADD : encode (.add 1 2) = [0xA0, 1, 2] := rfl
theorem test_decodeTableWord_LDI : decodeTableWord 24 0x080082 = some (.ldi 0 8) := by decide
theorem test_decodeTableWord_short : decodeTableWord 8 0xFFFFA0 = some (.add 0 0) := by decide
theorem test_decodeTableWord_unknown : decodeTableWord 8 0 = none := by decide

/-- R69's own spellings -/
theorem test_assembly : (Instr.ldi 0 8).assembly = "LDI R0,8" ∧ (Instr.mul 0 1).assembly = "MUL R0,R1" ∧
    (Instr.prn 0).assembly = "PRN R0" ∧ Instr.hlt.assembly = "HLT" := by decide

/-! ### One step per vector -/

/-- W1, first step; V2's kind of immediate -/
theorem test_LDI : (after (step (st 0 [] [(0, 0x82), (1, 5), (2, 0xFF)]))).map
    (fun t => (t.x[5], t.pc.toNat)) = some (255, 3) := by decide
/-- V3: LDI R7 writes the stack pointer -/
theorem test_LDI_R7 : (after (step (st 0 [] [(0, 0x82), (1, 7), (2, 16)]))).map
    (fun t => (t.x[7], t.run)) = some (16, .running) := by decide
/-- V8 -/
theorem test_PRN_R7 : (after (step (st 0 [] [(0, 0x47), (1, 7)]))).map
    (fun t => (t.out, t.pc.toNat)) = some ([244], 2) := by decide
/-- V9 -/
theorem test_PRN_at_255 : faultOf (step (st 255 [] [(255, 0x47)])) = some (.faulted, 2, 255, 256) := by decide
/-- V10 -/
theorem test_ADD_wraps : (after (step (st 0 [(0, 200), (1, 100)] [(0, 0xA0), (1, 0), (2, 1)]))).map
    (fun t => (t.x[0], t.x[1])) = some (44, 100) := by decide
/-- V16: rA is checked first -/
theorem test_ADD_checks_rA_first :
    faultOf (step (st 0 [] [(0, 0xA0), (1, 9), (2, 10)])) = some (.faulted, 4, 0, 9) := by decide
/-- V19 -/
theorem test_MUL_low_byte : (after (step (st 0 [(0, 255), (1, 255)] [(0, 0xA2), (1, 0), (2, 1)]))).map
    (fun t => t.x[0]) = some 1 := by decide
/-- V21 -/
theorem test_MUL_same_register : (after (step (st 0 [(3, 12)] [(0, 0xA2), (1, 3), (2, 3)]))).map
    (fun t => t.x[3]) = some 144 := by decide
/-- V27: unsigned -/
theorem test_CMP_unsigned : elgOf (step (st 0 [(0, 0), (1, 255)] [(0, 0xA7), (1, 0), (2, 1)])) =
    some (false, true, false) := by decide
/-- V29: Less is cleared -/
theorem test_CMP_clears : elgOf (exec (.cmp 0 1)
    { st 0 [(0, 2), (1, 2)] [] with flags := ⟨false, true, false⟩ }) = some (true, false, false) := by decide
/-- V33 -/
theorem test_PUSH_R7 : (after (step (st 0 [] [(0, 0x45), (1, 7)]))).map
    (fun t => (t.x[7], t.mem.get 0xF3)) = some (0xF3, 0xF3) := by decide
/-- V34: the push overwrites its own opcode byte -/
theorem test_PUSH_over_itself : (after (step (st 0 [(0, 0xAB), (7, 1)] [(0, 0x45), (1, 0)]))).map
    (fun t => (t.x[7], t.mem.get 0, t.pc.toNat)) = some (0, 0xAB, 2) := by decide
/-- V36 -/
theorem test_POP_R7 : (after (step (st 0 [(7, 0xF3)] [(0, 0x46), (1, 7), (0xF3, 0x40)]))).map
    (fun t => t.x[7]) = some 0x41 := by decide
/-- V38: nothing is committed -/
theorem test_POP_at_255 : (after (step (st 0 [(0, 3), (7, 255)] [(0, 0x46), (1, 0)]))).map
    (fun t => (t.x[0], t.x[7], t.fault.info, t.pc.toNat)) = some (3, 255, 256, 0) := by decide
/-- V40 -/
theorem test_JMP : (after (step (st 0 [(2, 10)] [(0, 0x54), (1, 2)]))).map
    (fun t => t.pc.toNat) = some 10 := by decide
/-- V48 -/
theorem test_JMP_at_255 : faultOf (step (st 255 [] [(255, 0x54)])) = some (.faulted, 2, 255, 256) := by decide
/-- V45 -/
theorem test_JEQ_after_reset : (after (step (st 0 [(3, 20)] [(0, 0x55), (1, 3)]))).map
    (fun t => t.pc.toNat) = some 2 := by decide
/-- V47: the register byte is checked although the jump is not taken -/
theorem test_JEQ_register_9 :
    faultOf (step (st 0 [] [(0, 0x55), (1, 9)])) = some (.faulted, 4, 0, 9) := by decide
/-- V46 -/
theorem test_JNE_after_reset : (after (step (st 0 [(3, 20)] [(0, 0x56), (1, 3)]))).map
    (fun t => t.pc.toNat) = some 20 := by decide
/-- V44 -/
theorem test_JNE_equal : (after (exec (.jne 3)
    { st 0 [(3, 20)] [] with flags := ⟨true, false, false⟩ })).map (fun t => t.pc.toNat) = some 2 := by decide
/-- V52 -/
theorem test_CALL_R7 : (after (step (st 0 [] [(0, 0x50), (1, 7)]))).map
    (fun t => (t.mem.get 0xF3, t.x[7], t.pc.toNat)) = some (2, 0xF3, 0xF3) := by decide
/-- V50 with R164: the return address is checked before the stack -/
theorem test_CALL_at_254 : faultOf (step (st 254 [(7, 0)] [(254, 0x50), (255, 1)])) =
    some (.faulted, 2, 254, 256) := by decide
/-- V53 -/
theorem test_RET : (after (step (st 0 [(7, 0xF3)] [(0, 0x11), (0xF3, 8)]))).map
    (fun t => (t.pc.toNat, t.x[7])) = some (8, 0xF4) := by decide
/-- V54 -/
theorem test_RET_at_255 : faultOf (step (st 0 [(7, 255)] [(0, 0x11)])) = some (.faulted, 2, 0, 256) := by decide
/-- V57 -/
theorem test_HLT_at_255 : (after (step (st 255 [] [(255, 1)]))).map
    (fun t => (t.run, t.pc.toNat, t.fault.cause)) = some (.halted, 256, .none) := by decide
/-- V58 -/
theorem test_no_step_when_halted : step { State.reset with run := .halted } = .fault .halted := rfl
/-- V59 -/
theorem test_fetch_at_256 : faultOf (step (st 256 [] [])) = some (.faulted, 2, 256, 256) := by decide
/-- V60: what the one step from reset with nothing loaded does -/
theorem test_reset_step : faultOf (step State.reset) = some (.faulted, 1, 0, 0) := by decide
/-- V61 -/
theorem test_unknown_at_255 : faultOf (step (st 255 [] [(255, 0xFF)])) = some (.faulted, 1, 255, 255) := by decide
/-- W1: the word placed for the host is what the next step runs -/
theorem test_withFetchWord : (after (step (State.reset.withFetchWord 24 0x080082))).map
    (fun t => (t.x[0], t.pc.toNat)) = some (8, 3) := by decide
/-- R34: writing 0 removes the cell, so equal memories are equal data -/
theorem test_memory_canonical : ((State.reset.mem.set 9 1).set 3 2).set 9 0 = State.reset.mem.set 3 2 := by decide
/-- R182 -/
theorem test_boot_W1 : (boot [0x82, 0, 8, 0x47, 0, 1]).map
    (fun h => (h.core.mem.get 3, h.core.mem.get 6, h.core.x[7])) = some (0x47, 0, 0xF4) := by decide

/-! ### Witnesses: concrete states and operands that meet the hypotheses -/

/-- Bytes at pc, checked one by one. -/
theorem bytesAtPc_of (s : State) (bs : List Byte)
    (h : ∀ k : Fin bs.length, s.pc.toNat + k.val ≤ 255 ∧ s.mem.get (s.pc.toNat + k.val) = bs[k]) :
    BytesAtPc s bs := by
  intro k b hk
  obtain ⟨hlt, rfl⟩ := List.getElem?_eq_some_iff.mp hk
  exact h ⟨k, hlt⟩

/-- Another legal opcode map: ADD and MUL exchanged. -/
def swappedConfig : Config :=
  ⟨fun m => match m with
    | .add => defaultOpcode .mul
    | .mul => defaultOpcode .add
    | m => defaultOpcode m⟩

/-- For `DecodeOfEncode`, `StepRunsInstructionAtPc`, `FetchFaultsInOrder`: legal maps other than the default exist. -/
theorem witness_legal_config : swappedConfig.Legal where
  injective m n h := by cases m <;> cases n <;> first | rfl | exact absurd h (by decide)
  ldi := rfl
  prn := rfl
  hlt := rfl

theorem witness_DecodeOfEncode : defaultConfig.Legal ∧ swappedConfig.Legal :=
  ⟨defaultConfig_legal, witness_legal_config⟩

theorem witness_EncodeOfDecode : swappedConfig.Legal ∧
    decodeWith swappedConfig [0xA0, 1, 255, 7] = .ok (.mul 1 255, [7]) := ⟨witness_legal_config, rfl⟩

/-- The last address a 3-byte instruction fits at, and address 0. -/
theorem witness_StepRunsInstructionAtPc :
    (defaultConfig.Legal ∧ (st 253 [] [(253, 0xA0), (254, 7), (255, 9)]).run = .running ∧
      BytesAtPc (st 253 [] [(253, 0xA0), (254, 7), (255, 9)]) (encodeWith defaultConfig (.add 7 9))) ∧
    ((st 0 [] [(0, 0x11)]).run = .running ∧ BytesAtPc (st 0 [] [(0, 0x11)]) (encode .ret)) :=
  ⟨⟨defaultConfig_legal, rfl, bytesAtPc_of _ _ (by decide)⟩, rfl, bytesAtPc_of _ _ (by decide)⟩

theorem witness_StepEnabledExactlyWhileRunning : State.reset.run = .running ∧
    { State.reset with run := .halted }.run = .halted ∧
    { State.reset with run := .faulted }.run = .faulted := ⟨rfl, rfl, rfl⟩

theorem no_opcode_00 (m : Mnemonic) : defaultConfig.opcodeOf m ≠ 0x00 := by cases m <;> decide

theorem no_opcode_FF (m : Mnemonic) : defaultConfig.opcodeOf m ≠ 0xFF := by cases m <;> decide

theorem witness_UnknownOpcodeFaults : (st 255 [] [(255, 0xFF)]).run = .running ∧
    (st 255 [] [(255, 0xFF)]).pc.toNat ≤ 255 ∧
    ∀ m, defaultConfig.opcodeOf m ≠ (st 255 [] [(255, 0xFF)]).mem.get (st 255 [] [(255, 0xFF)]).pc.toNat :=
  ⟨rfl, by decide, no_opcode_FF⟩

/-- pc = 256; an unknown byte at 255; LDI at 254 and 255, PRN at 255. -/
theorem witness_FetchFaultsInOrder :
    (256 ≤ (st 256 [] []).pc.toNat) ∧
    ((st 255 [] []).pc.toNat ≤ 255 ∧
      ∀ m, defaultConfig.opcodeOf m ≠ (st 255 [] []).mem.get (st 255 [] []).pc.toNat) ∧
    ((st 254 [] [(254, 0x82)]).pc.toNat ≤ 255 ∧ defaultConfig.opcodeOf .ldi = (st 254 [] [(254, 0x82)]).mem.get 254 ∧
      255 < (st 254 [] [(254, 0x82)]).pc.toNat + (Mnemonic.ldi.length - 1)) ∧
    ((st 255 [] [(255, 0x47)]).pc.toNat ≤ 255 ∧ defaultConfig.opcodeOf .prn = (st 255 [] [(255, 0x47)]).mem.get 255 ∧
      255 < (st 255 [] [(255, 0x47)]).pc.toNat + (Mnemonic.prn.length - 1)) :=
  ⟨by decide, ⟨by decide, no_opcode_00⟩, by decide, by decide⟩

theorem witness_InvalidRegisterFaultsFirst :
    (Instr.call 8).registerOperands.find? (fun r => 8 ≤ r.toNat) = some 8 ∧
    (Instr.cmp 7 255).registerOperands.find? (fun r => 8 ≤ r.toNat) = some 255 := by decide

/-- The register clauses of `LdiLoadsImmediate`, `PrnEmitsRegister`, `AddWrapsAtEightBits`, `MulKeepsLowByte`,
`CmpWritesAllThreeFlags`, `PushStoresBelowStackPointer`, `PopLoadsAtStackPointer`, `JmpTakesRegisterTarget`,
`JeqJumpsWhenEqual`, `JneJumpsWhenNotEqual` and `CallPushesReturnAddress`: 7 is the last register, 8 the first bad byte,
255 the last; 6 is the last register that is not R7. -/
theorem witness_register_bytes : (7 : Byte).toNat < 8 ∧ 8 ≤ (8 : Byte).toNat ∧ 8 ≤ (255 : Byte).toNat ∧
    (6 : Byte).toNat < 7 ∧ (7 : Byte).toNat = 7 := by decide

/-- `FetchFaultsAtTop op len` for each opcode: a state it speaks of, at 255, and at 254 for length 3. -/
theorem witness_FetchFaultsAtTop :
    (∀ op ∈ [0x82, 0x47, 0xA0, 0xA2, 0xA7, 0x45, 0x46, 0x54, 0x55, 0x56, 0x50], (st 255 [] [(255, op)]).run = .running ∧
      (st 255 [] [(255, op)]).pc.toNat ≤ 255 ∧ (st 255 [] [(255, op)]).mem.get 255 = op ∧
      255 < (st 255 [] [(255, op)]).pc.toNat + (2 - 1)) ∧
    (∀ op ∈ [0x82, 0xA0, 0xA2, 0xA7], (st 254 [] [(254, op)]).pc.toNat ≤ 255 ∧
      (st 254 [] [(254, op)]).mem.get 254 = op ∧ 255 < (st 254 [] [(254, op)]).pc.toNat + (3 - 1)) := by decide

/-- SP = 1 and SP = 0. -/
theorem witness_PushStoresBelowStackPointer :
    1 ≤ (st 0 [(7, 1)] []).x[7].toNat ∧ (st 0 [(7, 0)] []).x[7].toNat = 0 := by decide

/-- SP = 254 and 255; for POP R7 the popped byte 254 and 255. -/
theorem witness_PopLoadsAtStackPointer :
    (st 0 [(7, 254)] []).x[7].toNat ≤ 254 ∧ (st 0 [(7, 255)] []).x[7].toNat = 255 ∧
    ((st 0 [] [(0xF4, 254)]).mem.get (st 0 [] [(0xF4, 254)]).x[7].toNat).toNat ≤ 254 ∧
    ((st 0 [] [(0xF4, 255)]).mem.get (st 0 [] [(0xF4, 255)]).x[7].toNat).toNat = 255 := by decide

theorem witness_JeqJumpsWhenEqual_JneJumpsWhenNotEqual :
    { State.reset with flags := ⟨true, false, false⟩ }.flags.e = true ∧ State.reset.flags.e = false := ⟨rfl, rfl⟩

/-- A CALL at 253 with SP = 1; at 254 the return address does not fit; SP = 0 at 253. -/
theorem witness_CallPushesReturnAddress :
    ((st 253 [(7, 1)] []).pc.toNat + 2 ≤ 255 ∧ 1 ≤ (st 253 [(7, 1)] []).x[7].toNat) ∧
    255 < (st 254 [] []).pc.toNat + 2 ∧
    ((st 253 [(7, 0)] []).pc.toNat + 2 ≤ 255 ∧ (st 253 [(7, 0)] []).x[7].toNat = 0) := by decide

theorem witness_RetPopsProgramCounter :
    (st 0 [(7, 254)] []).x[7].toNat ≤ 254 ∧ (st 0 [(7, 255)] []).x[7].toNat = 255 := by decide

theorem witness_HltHalts : (st 255 [] [(255, 1)]).run = .running ∧ (st 255 [] [(255, 1)]).pc.toNat = 255 ∧
    (st 255 [] [(255, 1)]).mem.get 255 = 0x01 := by decide

theorem witness_RegisterFrame : (after (exec (.push 0) State.reset)).isSome = true ∧ ¬ writesReg (.push 0) 0 ∧
    (after (exec (.ldi 8 1) State.reset)).isSome = true ∧ ¬ writesReg (.ldi 8 1) 7 :=
  ⟨by decide, by simp [writesReg, spIndex], by decide, by simp [writesReg]⟩

/-- An instruction that stores nothing, a push at SP = 1, and a push that raises. -/
theorem witness_MemoryFrame :
    ((after (exec .ret State.reset)).isSome = true ∧ storeAddress .ret State.reset = none) ∧
    ((after (exec (.push 0) (st 0 [(7, 1)] []))).isSome = true ∧ storeAddress (.push 0) (st 0 [(7, 1)] []) = some 0) ∧
    storeAddress (.push 0) (st 0 [(7, 0)] []) = none ∧ storeAddress (.call 0) State.reset = some 0xF3 := by decide

/-- A flag value that agrees in E and differs in L and G; a CMP that completes and one that faults. -/
theorem witness_FlagsWrittenOnlyByCompare : (Instr.add 0 0).mnemonic ≠ .cmp ∧
    (after (exec (.add 0 0) State.reset)).isSome = true ∧
    (⟨false, true, false⟩ : Flags).e = State.reset.flags.e ∧ (⟨false, true, false⟩ : Flags) ≠ State.reset.flags ∧
    (after (exec (.cmp 0 7) State.reset)).map (fun t => decide (TookFault State.reset t)) = some false ∧
    (after (exec (.cmp 0 8) State.reset)).map (fun t => decide (TookFault State.reset t)) = some true := by
  decide

theorem witness_OutputIsPureSideEffect : (Instr.hlt).mnemonic ≠ .prn ∧ State.reset.run = .running ∧
    (after (exec (.prn 8) State.reset)).map (fun t => t.run) = some .faulted := by decide

theorem witness_RunStateAndFaultFrame :
    (after (exec .hlt State.reset)).map (fun t => t.run) = some .halted ∧
    (after (exec (.ldi 0 1) State.reset)).map (fun t => t.run) = some .running ∧
    (after (exec (.ldi 8 1) State.reset)).map (fun t => t.run) = some .faulted := by decide

/-- A fault from the fetch and one from an instruction. -/
theorem witness_FaultEntryIsPrecise :
    (after (step (st 256 [] []))).map (fun t => t.run) = some .faulted ∧
    (after (step (st 0 [(7, 0)] [(0, 0x45)]))).map (fun t => t.run) = some .faulted := by decide

theorem witness_RaisedCausesAreTheTables : (st 256 [] []).pc.toNat ≤ 256 ∧
    faultOf (step (st 256 [] [])) = some (.faulted, 2, 256, 256) ∧
    faultOf (step (st 0 [(7, 0)] [(0, 0x45)])) = some (.faulted, 2, 0, -1) := by decide

theorem witness_DataAccessOnlyByStackInstructions :
    ((Instr.cmp 0 1).mnemonic ∉ [.push, .pop, .call, .ret] ∧ (after (exec (.cmp 0 1) State.reset)).isSome = true) ∧
    ((Instr.pop 0).mnemonic ∈ [Mnemonic.pop, .ret] ∧
      (State.reset.mem.set 0 1).get State.reset.x[7].toNat = State.reset.mem.get State.reset.x[7].toNat ∧
      (after (exec (.pop 0) State.reset)).isSome = true) ∧
    ((Instr.call 0).mnemonic ∈ [Mnemonic.push, .call] ∧
      (after (exec (.call 0) State.reset)).map (fun t => decide (TookFault State.reset t)) = some false) ∧
    ((Instr.push 7).mnemonic ∈ [Mnemonic.push, .call] ∧
      (after (exec (.push 7) (st 0 [(7, 0)] []))).map (fun t => decide (TookFault (st 0 [(7, 0)] []) t)) =
        some true) := by
  decide

/-- LDI at 253, HLT at 255 (both leave pc = 256), RET, JEQ; and a running machine at 256. -/
theorem witness_PcNeverWraps :
    (after (step (st 253 [] [(253, 0x82)]))).map (fun t => (t.run, t.pc.toNat)) = some (.running, 256) ∧
    (after (step (st 255 [] [(255, 1)]))).map (fun t => (t.run, t.pc.toNat)) = some (.halted, 256) ∧
    (after (step (st 255 [] [(255, 0x11)]))).map (fun t => (t.run, t.pc.toNat)) = some (.running, 0) ∧
    (after (step (st 254 [] [(254, 0x55)]))).map (fun t => (t.run, t.pc.toNat)) = some (.running, 256) ∧
    ((st 256 [] []).run = .running ∧ (st 256 [] []).pc.toNat = 256) := by decide

/-- Operands for `CmpSwapFlipsLessAndGreater` and `JeqJneComplementary`. -/
theorem witness_CmpSwap_JeqJne : (0 : Byte).toNat < 8 ∧ (7 : Byte).toNat < 8 ∧
    elgOf (exec (.cmp 0 7) State.reset) = some (false, true, false) ∧
    elgOf (exec (.cmp 7 0) State.reset) = some (false, false, true) := by decide

/-- PUSH R7, POP R6 at SP = 1; PUSH R0, POP R7 with the value 254. -/
theorem witness_PushPopRestores :
    ((7 : Byte).toNat < 8 ∧ (6 : Byte).toNat < 7 ∧ 1 ≤ (st 0 [(7, 1)] []).x[7].toNat) ∧
    ((0 : Byte).toNat < 8 ∧ 1 ≤ (st 0 [(0, 254)] []).x[7].toNat ∧ (st 0 [(0, 254)] []).x[0].toNat ≤ 254) := by decide

/-- CALL R1 at 253, and a state after some subroutine: SP and the cell at SP as the CALL left them, R2 changed. -/
theorem witness_CallRetReturns :
    (1 : Byte).toNat < 8 ∧ (st 253 [(7, 1)] []).pc.toNat + 2 ≤ 255 ∧ 1 ≤ (st 253 [(7, 1)] []).x[7].toNat ∧
    (after (exec (.call 1) (st 253 [(7, 1)] []))).map
      (fun t => decide ((writeReg 2 9 t).x[7] = t.x[7] ∧
        (writeReg 2 9 t).mem.get (writeReg 2 9 t).x[7].toNat = t.mem.get t.x[7].toNat)) = some true := by decide

/-- SP = 254 for the first clause; SP = 2 and a CALL at 253 for the second. -/
theorem witness_RetJumpsToWhateverIsOnTop : (st 0 [(7, 254)] []).x[7].toNat ≤ 254 ∧
    (0 : Byte).toNat < 8 ∧ (6 : Byte).toNat < 8 ∧ (6 : Byte).toNat ≠ 7 ∧
    (st 253 [(7, 2)] []).pc.toNat + 2 ≤ 255 ∧ 2 ≤ (st 253 [(7, 2)] []).x[7].toNat := by decide

/-- A PUSH at 252 into 254: of HLT's byte, and of a byte that is no opcode. -/
theorem witness_StackWriteSeenByNextFetch :
    ((0 : Byte).toNat < 8 ∧ (st 252 [(0, 1), (7, 255)] [(252, 0x45)]).run = .running ∧
      BytesAtPc (st 252 [(0, 1), (7, 255)] [(252, 0x45)]) (encode (.push 0)) ∧
      (st 252 [(0, 1), (7, 255)] [(252, 0x45)]).x[7].toNat = (st 252 [(0, 1), (7, 255)] [(252, 0x45)]).pc.toNat + 3) ∧
    (st 252 [(0, 1), (7, 255)] [(252, 0x45)]).x[0] = defaultConfig.opcodeOf .hlt ∧
    ∀ m, defaultConfig.opcodeOf m ≠ (st 252 [(0, 0xFF), (7, 255)] [(252, 0x45)]).x[0] :=
  ⟨⟨by decide, rfl, bytesAtPc_of _ _ (by decide), by decide⟩, by decide, no_opcode_FF⟩

/-- One step of an LDI: the run's only state before it does not execute a CMP. -/
theorem witness_FlagsPersistUntilNextCompare :
    (∀ (j : Nat) (u : State), j < 1 → Host.Core.run Sys2Proof.core j (st 0 [] [(0, 0x82)]) = .next u →
      u.mem.get u.pc.toNat ≠ defaultConfig.opcodeOf .cmp) ∧
    (after (Host.Core.run Sys2Proof.core 1 (st 0 [] [(0, 0x82)]))).isSome = true := by
  refine ⟨fun j u hj h => ?_, by decide⟩
  obtain rfl : j = 0 := by omega
  obtain rfl : st 0 [] [(0, 0x82)] = u := Host.Outcome.next.inj h
  decide

theorem witness_SelfJumpRunsForever :
    (2 : Byte).toNat < 8 ∧ (st 254 [(2, 254)] [(254, 0x54), (255, 2)]).run = .running ∧
    BytesAtPc (st 254 [(2, 254)] [(254, 0x54), (255, 2)]) (encode (.jmp 2)) ∧
    (st 254 [(2, 254)] [(254, 0x54), (255, 2)]).x[2].toNat = (st 254 [(2, 254)] [(254, 0x54), (255, 2)]).pc.toNat :=
  ⟨by decide, rfl, bytesAtPc_of _ _ (by decide), by decide⟩

/-- A program of 256 bytes, and one of 257. -/
theorem witness_BootLoadsProgram : (List.replicate 256 (1 : Byte)).length ≤ 256 ∧
    256 < (List.replicate 257 (1 : Byte)).length := by
  rw [List.length_replicate, List.length_replicate]; decide

theorem witness_HostLoadOnlyBeforeFirstStep : hostReset.started = false ∧
    ((hostLoad 0 0x01 hostReset).bind hostStep).map (fun h => h.started) = some true := by decide

/-- The started session of a program HLT, Halted; RESET is a move it has. -/
theorem witness_OnlyResetLeavesAStop :
    ((hostLoad 0 0x01 hostReset).bind hostStep).map (fun h => (h.started, h.core.run)) = some (true, .halted) ∧
    hostMove ⟨true, { State.reset with run := .halted }⟩ .reset = some hostReset := by decide

/-- A reset state with a program byte meets the invariant, and its step answers a next state. -/
theorem witness_StepKeepsInvariant : (st 0 [] [(0, 0x45)]).Inv ∧ (after (step (st 0 [] [(0, 0x45)]))).isSome = true :=
  ⟨⟨by decide, by decide, by decide, fun _ => rfl, fun h => by cases h⟩, by decide⟩

theorem witness_HostMovesKeepInvariant : (⟨false, st 0 [] [(0, 0x45)]⟩ : Session).core.Inv ∧
    (hostMove ⟨false, st 0 [] [(0, 0x45)]⟩ (.load 1 7)).isSome = true ∧
    (hostMove ⟨false, st 0 [] [(0, 0x45)]⟩ .step).isSome = true ∧ (boot [0x01]).isSome = true :=
  ⟨witness_StepKeepsInvariant.1, by decide, by decide, by decide⟩

theorem witness_EqualReadsEqualMemories : ((⟨[]⟩ : Memory).set 255 1).wf ∧ (((⟨[]⟩ : Memory).set 255 1).set 0 0).wf ∧
    ∀ a, ((⟨[]⟩ : Memory).set 255 1).get a = (((⟨[]⟩ : Memory).set 255 1).set 0 0).get a :=
  ⟨by decide, by decide, fun _ => rfl⟩

/-- Addresses 0 and 255; -1 and 256. -/
theorem witness_MemoryAccessRange : (0 : Int) ≤ 0 ∧ (0 : Int) ≤ 255 ∧ (255 : Int) ≤ 255 ∧
    ((-1 : Int) < 0 ∨ 255 < (-1 : Int)) ∧ ((256 : Int) < 0 ∨ 255 < (256 : Int)) := by decide

end Sys2Proof.Tests
end

section
/-! The flags (R26). One law carries them: giving the flags another value that agrees in E commutes with every
instruction but CMP. That they are left alone, and that nothing but E is read, are its two uses. -/

namespace Sys2Proof.Machine

/-! ### Giving the flags a value commutes with the shared operations -/

section setFlags
variable (f : Flags) (s : State)

theorem setFlags_flags_self : setFlags s.flags s = s := rfl

@[simp] theorem writeReg_setFlags (r : Reg) (v : Byte) :
    writeReg r v (setFlags f s) = setFlags f (writeReg r v s) := rfl
@[simp] theorem advance_setFlags (n : Nat) : advance n (setFlags f s) = setFlags f (advance n s) := rfl
@[simp] theorem jumpTo_setFlags (v : Byte) : jumpTo v (setFlags f s) = setFlags f (jumpTo v s) := rfl
@[simp] theorem emit_setFlags (v : Byte) : emit v (setFlags f s) = setFlags f (emit v s) := rfl
@[simp] theorem haltRun_setFlags : haltRun (setFlags f s) = setFlags f (haltRun s) := rfl
@[simp] theorem takeFault_setFlags (r : Raised) : takeFault r (setFlags f s) = setFlags f (takeFault r s) := rfl
@[simp] theorem sp_setFlags : sp (setFlags f s) = sp s := rfl
@[simp] theorem returnAddress_setFlags : returnAddress (setFlags f s) = returnAddress s := rfl
@[simp] theorem memRead_setFlags (a : Int) : memRead (setFlags f s) a = memRead s a := rfl

@[simp] theorem memWrite_setFlags (a : Int) (v : Byte) :
    memWrite (setFlags f s) a v = setFlags f <$> memWrite s a v := by
  by_cases h : InMemory a
  · rw [memWrite_ok _ _ _ h, memWrite_ok _ _ _ h]; rfl
  · rw [memWrite_error _ _ _ h, memWrite_error _ _ _ h]; rfl

theorem moveSp_setFlags (n : Int) : moveSp (setFlags f s) n = setFlags f <$> moveSp s n := by
  unfold moveSp
  split <;> rfl

@[simp] theorem decSp_setFlags : decSp (setFlags f s) = setFlags f <$> decSp s := moveSp_setFlags f s _
@[simp] theorem incSp_setFlags : incSp (setFlags f s) = setFlags f <$> incSp s := moveSp_setFlags f s _

end setFlags

/-- An effect that commutes with giving the flags a value is committed to the same state but for that value,
and so is the fault it raises. -/
theorem settle_setFlags {f : Flags} {s t : State} {r r' : Except Raised State} (h : settle s r = .next t)
    (hr : r' = setFlags f <$> r) : settle (setFlags f s) r' = .next (setFlags f t) := by
  subst hr
  obtain rfl | ⟨e, rfl, rfl⟩ := (settle_eq_next s t r).mp h <;> rfl

/-! ### Giving the flags a value commutes with every instruction but CMP -/

/-- Other flags that agree in E change nothing but themselves: JEQ and JNE read E, and no instruction
reads L or G (R26). -/
theorem exec_setFlags {i : Instr} {s t : State} {f : Flags} (hi : i.mnemonic ≠ .cmp)
    (he : f.e = s.flags.e) (h : exec i s = .next t) : exec i (setFlags f s) = .next (setFlags f t) := by
  cases i with
  | cmp rA rB => exact absurd rfl hi
  | hlt => cases h; rfl
  | ldi rA imm8 => exact settle_setFlags h (by simp)
  | prn rA => exact settle_setFlags h (by simp)
  | add rA rB => exact settle_setFlags h (by simp)
  | mul rA rB => exact settle_setFlags h (by simp)
  | push rA => exact settle_setFlags h (by simp [-memWrite_byte])
  | pop rA => exact settle_setFlags h (by simp)
  | jmp rA => exact settle_setFlags h (by simp)
  | jeq rA => exact settle_setFlags h (by simp [he, apply_ite])
  | jne rA => exact settle_setFlags h (by simp [he, apply_ite])
  | call rA => exact settle_setFlags h (by simp [-memWrite_byte])
  | ret =>
    unfold exec execRet at h ⊢
    exact settle_setFlags h (by simp)

/-- Every instruction other than CMP leaves the flags (R26): giving them the value they have changes nothing
before it, so nothing after it. -/
theorem exec_flags {i : Instr} {s t : State} (hi : i.mnemonic ≠ .cmp) (h : exec i s = .next t) :
    t.flags = s.flags := by
  have hset : exec i s = .next (setFlags s.flags t) := exec_setFlags hi rfl h
  have ht : t = setFlags s.flags t := Host.Outcome.next.inj (h.symm.trans hset)
  rw [ht, setFlags_flags]

/-! ### CMP -/

theorem eq_cmp_of_mnemonic {i : Instr} (h : i.mnemonic = .cmp) : ∃ rA rB, i = .cmp rA rB := by
  cases i with
  | cmp rA rB => exact ⟨rA, rB, rfl⟩
  | _ => cases h

theorem exec_cmp_ok {rA rB : Byte} {a b : Reg} (h : registerOperands rA rB = .ok (a, b)) (s : State) :
    exec (.cmp rA rB) s = .next (advance 3 (setFlags (compareFlags (readReg s a) (readReg s b)) s)) := by
  simp [exec, execCmp, h, Mnemonic.length]

theorem exec_cmp_error {rA rB : Byte} {e : Raised} (h : registerOperands rA rB = .error e) (s : State) :
    exec (.cmp rA rB) s = .next (takeFault e s) := by
  simp [exec, execCmp, h]

theorem compareFlags_exactlyOne (a b : Byte) : (compareFlags a b).exactlyOne = true := by
  obtain ⟨-, h⟩ | ⟨-, h⟩ | ⟨-, h⟩ := compareFlags_cases a b <;> rw [h] <;> rfl

/-! ### Faults and completion -/

theorem tookFault_takeFault (e : Raised) (s : State) : TookFault s (takeFault e s) := rfl

/-- A fault leaves pc at the faulting instruction (R163). -/
theorem TookFault.pc_eq {s t : State} (h : TookFault s t) : t.pc = s.pc := by
  rw [h]; rfl

/-- Moving past an instruction of three bytes is no fault, whatever else was written. -/
theorem not_tookFault_advance_three {s t : State} (hpc : t.pc = s.pc) : ¬ TookFault s (advance 3 t) := by
  intro h
  have h3 : s.pc + 3 = s.pc := by simpa [hpc] using h.pc_eq
  bv_omega

/-- A CMP under other flags: if it completes it leaves the same state, if it faults only the flags differ. -/
theorem exec_cmp_setFlags {rA rB : Byte} {s t : State} (f : Flags) (h : exec (.cmp rA rB) s = .next t) :
    (¬ TookFault s t ∧ exec (.cmp rA rB) (setFlags f s) = .next t) ∨
    (TookFault s t ∧ exec (.cmp rA rB) (setFlags f s) = .next (setFlags f t)) := by
  cases hr : registerOperands rA rB with
  | ok ab =>
    obtain rfl := Host.Outcome.next.inj ((exec_cmp_ok hr s).symm.trans h)
    exact .inl ⟨not_tookFault_advance_three rfl, exec_cmp_ok hr (setFlags f s)⟩
  | error e =>
    obtain rfl := Host.Outcome.next.inj ((exec_cmp_error hr s).symm.trans h)
    exact .inr ⟨tookFault_takeFault e s, exec_cmp_error hr (setFlags f s)⟩

/-! ### JEQ and JNE -/

/-- The jump's target is the byte's value (R72, R131). -/
theorem jumpTo_eq (v : Byte) (s : State) : jumpTo v s = { s with pc := BitVec.ofNat 9 v.toNat } := by
  rw [BitVec.ofNat_toNat]; rfl

theorem exec_jeq_ok (s : State) {rA : Byte} (hA : rA.toNat < 8) :
    exec (.jeq rA) s = .next { s with
      pc := if s.flags.e = true then BitVec.ofNat 9 s.x[rA.toNat].toNat else s.pc + 2 } := by
  simp only [exec, execJeq, registerOperand_ok rA hA, ok_bind, pure_ok, settle_ok, jumpTo_eq]
  split <;> rfl

theorem exec_jne_ok (s : State) {rA : Byte} (hA : rA.toNat < 8) :
    exec (.jne rA) s = .next { s with
      pc := if s.flags.e = true then s.pc + 2 else BitVec.ofNat 9 s.x[rA.toNat].toNat } := by
  simp only [exec, execJne, registerOperand_ok rA hA, ok_bind, pure_ok, settle_ok, jumpTo_eq]
  split <;> rfl

/-! ### The obligation -/

/-- Settles O26: CMP by its two outcomes, every other instruction because giving the flags a value commutes
with it. -/
theorem flagsWrittenOnlyByCompare : Obligations.FlagsWrittenOnlyByCompare := by
  refine ⟨fun s rA rB hA hB => ?_, fun i s t => exec_flags,
    fun s rA hA => ⟨exec_jeq_ok s hA, exec_jne_ok s hA⟩, fun i s t f he h => ?_⟩
  · exact ⟨_, exec_cmp_ok (registerOperands_ok rA rB hA hB) s, compareFlags_exactlyOne _ _⟩
  · by_cases hi : i.mnemonic = .cmp
    · obtain ⟨rA, rB, rfl⟩ := eq_cmp_of_mnemonic hi
      obtain ⟨hf, hu⟩ | ⟨hf, hu⟩ := exec_cmp_setFlags f h
      · exact ⟨t, hu, rfl, fun _ _ => rfl, fun h' => absurd h' (by simp [hi, hf])⟩
      · exact ⟨setFlags f t, hu, rfl, fun _ hn => absurd hf hn, fun _ => rfl⟩
    · exact ⟨setFlags f t, exec_setFlags hi he h, rfl, fun hc => absurd hc hi, fun _ => rfl⟩

end Sys2Proof.Machine
end

section
/-! LDI and PRN (R100, R102), with the two faults that every instruction of their formats shares: an operand
byte past the top of memory, and a register byte 8..255. -/

namespace Sys2Proof

/-! ### Decoding the bytes after an opcode -/

/-- An opcode byte leaves the rest of the bytes to the operands of its mnemonic (R67, R68). -/
theorem decodeWith_opcodeOf_cons {c : Config} (hc : c.Legal) (m : Mnemonic) (rest : List Byte) :
    decodeWith c (c.opcodeOf m :: rest) = decodeOperands m rest := by
  simp [decodeWith, mnemonicOf_opcodeOf c hc m]

theorem Mnemonic.length_le_three (m : Mnemonic) : m.length ≤ 3 := by
  cases m <;> decide

theorem decodeOperands_missing_first {m : Mnemonic} (h : 1 < m.length) :
    decodeOperands m [] = .error (.missingOperand 1) := by
  cases m with
  | ret | hlt => exact absurd h (by decide)
  | _ => rfl

theorem decodeOperands_missing_second {m : Mnemonic} (h : 2 < m.length) (b : Byte) :
    decodeOperands m [b] = .error (.missingOperand 2) := by
  cases m with
  | ldi | add | mul | cmp => rfl
  | _ => exact absurd h (by decide)

end Sys2Proof

namespace Sys2Proof.Machine

/-! ### An operand byte past the top of memory -/

/-- What the fetch raises, the running step takes as its fault (R163). -/
theorem stepWith_fetch_error {c : Config} {s : State} {e : Raised} (hrun : s.run = .running)
    (h : fetch c s = .error e) : stepWith c s = .next (s.faulted e.cause e.info) := by
  rw [stepWith_running c s hrun, stepRunning, h]; rfl

/-- The first address past the top of memory is reported as 256, whichever operand byte is missing: at 255 it
is the first, at 254 the second (R71). -/
theorem stepWith_operand_past_top {c : Config} (hc : c.Legal) {s : State} {m : Mnemonic}
    (hrun : s.run = .running) (hpc : s.pc.toNat ≤ 255) (hop : s.mem.get s.pc.toNat = c.opcodeOf m)
    (htop : 255 < s.pc.toNat + (m.length - 1)) : stepWith c s = .next (s.faulted .memoryOutOfRange 256) := by
  have hlen := m.length_le_three
  apply stepWith_fetch_error (e := ⟨.memoryOutOfRange, 256⟩) hrun
  obtain h255 | h254 : s.pc.toNat = 255 ∨ s.pc.toNat = 254 := by omega
  · rw [fetch, fetchWindow_one s (by rw [h255]), hop, decodeWith_opcodeOf_cons hc,
      decodeOperands_missing_first (by omega)]
    simp [fetchRaise, h255]
  · rw [fetch, fetchWindow_two s (by rw [h254]), hop, decodeWith_opcodeOf_cons hc,
      decodeOperands_missing_second (by omega)]
    simp [fetchRaise, h254]

theorem fetchFaultsAtTop (m : Mnemonic) : FetchFaultsAtTop (defaultConfig.opcodeOf m) m.length :=
  fun _ hrun hpc hop htop => stepWith_operand_past_top defaultConfig_legal hrun hpc hop htop

/-! ### An effect that begins with the check of a register byte -/

theorem settle_registerOperand_ok {b : Byte} (hb : b.toNat < 8) (s : State) (f : Reg → Except Raised State) :
    settle s (registerOperand b >>= f) = settle s (f ⟨b.toNat, hb⟩) := by
  rw [registerOperand_ok b hb, ok_bind]

theorem settle_registerOperand_error {b : Byte} (hb : 8 ≤ b.toNat) (s : State)
    (f : Reg → Except Raised State) :
    settle s (registerOperand b >>= f) = .next (s.faulted .invalidRegisterIndex b.toNat) := by
  rw [registerOperand_error b (by omega), error_bind, settle_error]; rfl

/-! ### The two instructions -/

theorem exec_ldi_ok (s : State) {rA : Byte} (imm8 : Byte) (hA : rA.toNat < 8) :
    exec (.ldi rA imm8) s = .next { s with x := s.x.set rA.toNat imm8, pc := s.pc + 3 } :=
  settle_registerOperand_ok hA s _

theorem exec_prn_ok (s : State) {rA : Byte} (hA : rA.toNat < 8) :
    exec (.prn rA) s = .next { s with out := s.out ++ [s.x[rA.toNat]], pc := s.pc + 2 } :=
  settle_registerOperand_ok hA s _

theorem exec_prn_error (s : State) {rA : Byte} (hA : 8 ≤ rA.toNat) :
    exec (.prn rA) s = .next (s.faulted .invalidRegisterIndex rA.toNat) :=
  settle_registerOperand_error hA s _

/-- Settles O11: the bytes by the opcode map, the two outcomes by the register byte's check. -/
theorem ldiLoadsImmediate : Obligations.LdiLoadsImmediate :=
  ⟨fun rA imm8 rest => decodeWith_opcodeOf_cons defaultConfig_legal .ldi (rA :: imm8 :: rest),
    fun s _ imm8 hA => exec_ldi_ok s imm8 hA,
    fun s _ _ hA => settle_registerOperand_error hA s _,
    fetchFaultsAtTop .ldi⟩

/-- Settles O12: the bytes by the opcode map, the two outcomes by the register byte's check. -/
theorem prnEmitsRegister : Obligations.PrnEmitsRegister :=
  ⟨fun rA rest => decodeWith_opcodeOf_cons defaultConfig_legal .prn (rA :: rest),
    fun s _ hA => exec_prn_ok s hA,
    fun s _ hA => exec_prn_error s hA,
    fetchFaultsAtTop .prn⟩

end Sys2Proof.Machine
end

section
/-! The output port (R101). Replacing what was emitted before commutes with every instruction but PRN, so
these neither read the output nor append to it; PRN is its two outcomes. -/

namespace Sys2Proof.Machine

/-- The state with another output so far. -/
def setOut (o : List Byte) (s : State) : State := { s with out := o }

/-! ### Replacing the output commutes with the shared operations -/

section setOut
variable (o : List Byte) (s : State)

@[simp] theorem setOut_mem : (setOut o s).mem = s.mem := rfl
@[simp] theorem setOut_flags : (setOut o s).flags = s.flags := rfl
@[simp] theorem readReg_setOut (r : Reg) : readReg (setOut o s) r = readReg s r := rfl
@[simp] theorem sp_setOut : sp (setOut o s) = sp s := rfl
@[simp] theorem returnAddress_setOut : returnAddress (setOut o s) = returnAddress s := rfl

@[simp] theorem writeReg_setOut (r : Reg) (v : Byte) :
    writeReg r v (setOut o s) = setOut o (writeReg r v s) := rfl
@[simp] theorem setFlags_setOut (f : Flags) : setFlags f (setOut o s) = setOut o (setFlags f s) := rfl
@[simp] theorem advance_setOut (n : Nat) : advance n (setOut o s) = setOut o (advance n s) := rfl
@[simp] theorem jumpTo_setOut (v : Byte) : jumpTo v (setOut o s) = setOut o (jumpTo v s) := rfl

@[simp] theorem memWrite_setOut (a : Int) (v : Byte) :
    memWrite (setOut o s) a v = setOut o <$> memWrite s a v := by
  by_cases h : InMemory a
  · rw [memWrite_ok _ _ _ h, memWrite_ok _ _ _ h]; rfl
  · rw [memWrite_error _ _ _ h, memWrite_error _ _ _ h]; rfl

theorem moveSp_setOut (n : Int) : moveSp (setOut o s) n = setOut o <$> moveSp s n := by
  unfold moveSp
  split <;> rfl

@[simp] theorem decSp_setOut : decSp (setOut o s) = setOut o <$> decSp s := moveSp_setOut o s _
@[simp] theorem incSp_setOut : incSp (setOut o s) = setOut o <$> incSp s := moveSp_setOut o s _

end setOut

/-- An effect that commutes with replacing the output is committed to the same state but for the output, and
so is the fault it raises. -/
theorem settle_setOut {o : List Byte} {s t : State} {r r' : Except Raised State} (h : settle s r = .next t)
    (hr : r' = setOut o <$> r) : settle (setOut o s) r' = .next (setOut o t) := by
  subst hr
  obtain rfl | ⟨e, rfl, rfl⟩ := (settle_eq_next s t r).mp h <;> rfl

/-! ### Every instruction but PRN -/

/-- Under another output so far, every instruction but PRN does the same and leaves that output (R101, R152,
R174). -/
theorem exec_setOut {i : Instr} {s t : State} (hi : i.mnemonic ≠ .prn) (o : List Byte)
    (h : exec i s = .next t) : exec i (setOut o s) = .next (setOut o t) := by
  cases i with
  | prn rA => exact absurd rfl hi
  | hlt => cases h; rfl
  | ldi rA imm8 => exact settle_setOut h (by simp)
  | add rA rB => exact settle_setOut h (by simp)
  | mul rA rB => exact settle_setOut h (by simp)
  | cmp rA rB => exact settle_setOut h (by simp)
  | push rA => exact settle_setOut h (by simp [-memWrite_byte])
  | pop rA => exact settle_setOut h (by simp)
  | jmp rA => exact settle_setOut h (by simp)
  | jeq rA => exact settle_setOut h (by cases hE : s.flags.e <;> simp [hE])
  | jne rA => exact settle_setOut h (by cases hE : s.flags.e <;> simp [hE])
  | call rA => exact settle_setOut h (by simp [-memWrite_byte])
  | ret =>
    unfold exec execRet at h ⊢
    exact settle_setOut h (by simp)

/-- Every instruction but PRN leaves the output: giving it the value it has changes nothing before the
instruction, so nothing after it. -/
theorem exec_out {i : Instr} {s t : State} (hi : i.mnemonic ≠ .prn) (h : exec i s = .next t) :
    t.out = s.out := by
  have hset : exec i s = .next (setOut s.out t) := exec_setOut hi s.out h
  have ht : t = setOut s.out t := Host.Outcome.next.inj (h.symm.trans hset)
  rw [ht]; rfl

theorem eq_prn_of_mnemonic {i : Instr} (h : i.mnemonic = .prn) : ∃ rA, i = .prn rA := by
  cases i with
  | prn rA => exact ⟨rA, rfl⟩
  | _ => cases h

/-! ### The obligation -/

/-- Settles O27: a PRN that completes appends its one value, a PRN that faults and every other instruction
append nothing, whatever the output was before. -/
theorem outputIsPureSideEffect : Obligations.OutputIsPureSideEffect := by
  refine ⟨rfl, fun s rA hA => ⟨_, exec_prn_ok s hA, rfl⟩, fun i s o => ?_⟩
  by_cases hi : i.mnemonic = .prn
  · obtain ⟨rA, rfl⟩ := eq_prn_of_mnemonic hi
    obtain hA | hA := Nat.lt_or_ge rA.toNat 8
    · exact ⟨_, [s.x[rA.toNat]], exec_prn_ok s hA, rfl, exec_prn_ok _ hA, fun h => absurd hi h,
        fun hrun hf => absurd (hrun.symm.trans hf) (by decide)⟩
    · exact ⟨_, [], exec_prn_error s hA, (List.append_nil _).symm,
        by rw [List.append_nil]; exact exec_prn_error _ hA, fun _ => rfl, fun _ _ => rfl⟩
  · obtain ⟨t, ht⟩ := exec_isNext i s
    exact ⟨t, [], ht, by rw [exec_out hi ht, List.append_nil],
      by rw [List.append_nil]; exact exec_setOut hi o ht, fun _ => rfl, fun _ _ => rfl⟩

end Sys2Proof.Machine
end

section
/-! ADD, MUL and CMP (R110, R112, R114): the check of two register bytes in operand order, what each of the
three leaves, and the compare with its operands swapped (R115). -/

namespace Sys2Proof.Machine

/-! ### An effect that begins with the check of two register bytes -/

theorem settle_registerOperands_ok {rA rB : Byte} (hA : rA.toNat < 8) (hB : rB.toNat < 8) (s : State)
    (f : Reg × Reg → Except Raised State) :
    settle s (registerOperands rA rB >>= f) = settle s (f (⟨rA.toNat, hA⟩, ⟨rB.toNat, hB⟩)) := by
  rw [registerOperands_ok rA rB hA hB, ok_bind]

theorem settle_registerOperands_error_first {rA rB : Byte} (hA : 8 ≤ rA.toNat) (s : State)
    (f : Reg × Reg → Except Raised State) :
    settle s (registerOperands rA rB >>= f) = .next (s.faulted .invalidRegisterIndex rA.toNat) := by
  rw [registerOperands_error_first rA rB (by omega), error_bind, settle_error]; rfl

theorem settle_registerOperands_error_second {rA rB : Byte} (hA : rA.toNat < 8) (hB : 8 ≤ rB.toNat)
    (s : State) (f : Reg × Reg → Except Raised State) :
    settle s (registerOperands rA rB >>= f) = .next (s.faulted .invalidRegisterIndex rB.toNat) := by
  rw [registerOperands_error_second rA rB hA (by omega), error_bind, settle_error]; rfl

/-! ### Sum and product -/

@[simp] theorem toNat_trunc8 (n : Nat) : (trunc8 n).toNat = n % 256 := by
  simp [trunc8]

theorem exec_add_ok (s : State) {rA rB : Byte} (hA : rA.toNat < 8) (hB : rB.toNat < 8) :
    exec (.add rA rB) s = .next { s with
      x := s.x.set rA.toNat (trunc8 (s.x[rA.toNat].toNat + s.x[rB.toNat].toNat)), pc := s.pc + 3 } :=
  settle_registerOperands_ok hA hB s _

theorem exec_mul_ok (s : State) {rA rB : Byte} (hA : rA.toNat < 8) (hB : rB.toNat < 8) :
    exec (.mul rA rB) s = .next { s with
      x := s.x.set rA.toNat (trunc8 (s.x[rA.toNat].toNat * s.x[rB.toNat].toNat)), pc := s.pc + 3 } :=
  settle_registerOperands_ok hA hB s _

/-- Settles O13: the bytes by the opcode map, the sum by `toNat_trunc8`, the faults by the two register
bytes' check. -/
theorem addWrapsAtEightBits : Obligations.AddWrapsAtEightBits :=
  ⟨fun rA rB rest => decodeWith_opcodeOf_cons defaultConfig_legal .add (rA :: rB :: rest),
    fun s _ _ hA hB => ⟨_, toNat_trunc8 _, exec_add_ok s hA hB⟩,
    fun s _ _ hA => settle_registerOperands_error_first hA s _,
    fun s _ _ hA hB => settle_registerOperands_error_second hA hB s _,
    fetchFaultsAtTop .add⟩

/-- Settles O14: the bytes by the opcode map, the product by `toNat_trunc8`, the faults by the two register
bytes' check. -/
theorem mulKeepsLowByte : Obligations.MulKeepsLowByte :=
  ⟨fun rA rB rest => decodeWith_opcodeOf_cons defaultConfig_legal .mul (rA :: rB :: rest),
    fun s _ _ hA hB => ⟨_, toNat_trunc8 _, exec_mul_ok s hA hB⟩,
    fun s _ _ hA => settle_registerOperands_error_first hA s _,
    fun s _ _ hA hB => settle_registerOperands_error_second hA hB s _,
    fetchFaultsAtTop .mul⟩

/-! ### The compare -/

/-- Each flag is one comparison of the unsigned values (R114). -/
theorem compareFlags_eq (a b : Byte) :
    compareFlags a b = ⟨a.toNat = b.toNat, a.toNat < b.toNat, b.toNat < a.toNat⟩ := by
  obtain ⟨rfl, h⟩ | ⟨hlt, h⟩ | ⟨hgt, h⟩ := compareFlags_cases a b
  · simp [h]
  · simp [h, hlt, hlt.ne, hlt.le]
  · simp [h, hgt, hgt.ne', hgt.le]

theorem compareFlags_swap (a b : Byte) :
    compareFlags b a =
      { e := (compareFlags a b).e, l := (compareFlags a b).g, g := (compareFlags a b).l } := by
  simp only [compareFlags_eq, eq_comm (a := b.toNat)]

theorem exec_cmp_ok_flags (s : State) {rA rB : Byte} (hA : rA.toNat < 8) (hB : rB.toNat < 8) :
    exec (.cmp rA rB) s = .next { s with
      flags := ⟨s.x[rA.toNat].toNat = s.x[rB.toNat].toNat, s.x[rA.toNat].toNat < s.x[rB.toNat].toNat,
        s.x[rB.toNat].toNat < s.x[rA.toNat].toNat⟩, pc := s.pc + 3 } := by
  rw [exec_cmp_ok (registerOperands_ok rA rB hA hB), compareFlags_eq]; rfl

/-- Settles O15: the bytes by the opcode map, the flags by `compareFlags_eq`, the faults by the two register
bytes' check. -/
theorem cmpWritesAllThreeFlags : Obligations.CmpWritesAllThreeFlags :=
  ⟨fun rA rB rest => decodeWith_opcodeOf_cons defaultConfig_legal .cmp (rA :: rB :: rest),
    fun s _ _ hA hB =>
      ⟨_, decide_eq_true_iff, decide_eq_true_iff, decide_eq_true_iff, exec_cmp_ok_flags s hA hB⟩,
    fun s _ _ hA => settle_registerOperands_error_first hA s _,
    fun s _ _ hA hB => settle_registerOperands_error_second hA hB s _,
    fetchFaultsAtTop .cmp⟩

/-- Settles O33: both compares complete, and swapping the operands swaps Less and Greater. -/
theorem cmpSwapFlipsLessAndGreater : Obligations.CmpSwapFlipsLessAndGreater := fun s rA rB hA hB =>
  ⟨_, _, exec_cmp_ok (registerOperands_ok rA rB hA hB) s, exec_cmp_ok (registerOperands_ok rB rA hB hA) s,
    compareFlags_swap _ _⟩

end Sys2Proof.Machine
end

section
/-! PUSH and POP (R121, R122): the stack pointer's checked moves inside an effect, the register PUSH reads after
the decrement, and the stack pointer POP moves after the register write. -/

namespace Sys2Proof.Machine

/-! ### An effect that moves the stack pointer -/

/-- A push goes on with the stack pointer one less (R120). -/
theorem settle_decSp_ok {t : State} (h : 1 ≤ (sp t).toNat) (s : State) (f : State → Except Raised State) :
    settle s (decSp t >>= f) = settle s (f (writeReg spIndex (sp t - 1) t)) := by
  have hne : sp t ≠ 0 := fun h0 => by simp [h0] at h
  rw [decSp_ok t hne, ok_bind]

theorem settle_decSp_error {t : State} (h : (sp t).toNat = 0) (s : State) (f : State → Except Raised State) :
    settle s (decSp t >>= f) = .next (s.faulted .memoryOutOfRange (-1)) := by
  rw [decSp_error t (BitVec.eq_of_toNat_eq h), error_bind, settle_error]; rfl

/-- A pop goes on with the stack pointer one more (R120). -/
theorem settle_incSp_ok {t : State} (h : (sp t).toNat ≤ 254) (s : State) (f : State → Except Raised State) :
    settle s (incSp t >>= f) = settle s (f (writeReg spIndex (sp t + 1) t)) := by
  have hne : sp t ≠ 255 := fun h255 => by simp [h255] at h
  rw [incSp_ok t hne, ok_bind]

theorem settle_incSp_error {t : State} (h : (sp t).toNat = 255) (s : State) (f : State → Except Raised State) :
    settle s (incSp t >>= f) = .next (s.faulted .memoryOutOfRange 256) := by
  rw [incSp_error t (BitVec.eq_of_toNat_eq h), error_bind, settle_error]; rfl

/-! ### PUSH -/

/-- A register read after the stack pointer took `v`: R7 is the stack pointer itself (decision D23). -/
theorem readReg_writeReg_sp (s : State) (v : Byte) {r : Nat} (hr : r < 8) :
    readReg (writeReg spIndex v s) ⟨r, hr⟩ = if r = 7 then v else s.x[r] := by
  rw [readReg_writeReg]
  simp [spIndex, readReg, Fin.ext_iff, eq_comm]

theorem exec_push_ok (s : State) {rA : Byte} (hA : rA.toNat < 8) (hsp : 1 ≤ s.x[7].toNat) :
    exec (.push rA) s = .next { s with
      x := s.x.set 7 (s.x[7] - 1)
      mem := s.mem.set (s.x[7].toNat - 1) (if rA.toNat = 7 then s.x[7] - 1 else s.x[rA.toNat])
      pc := s.pc + 2 } := by
  have haddr : (s.x[7] - 1).toNat = s.x[7].toNat - 1 := BitVec.toNat_sub_of_le hsp
  rw [exec, execPush, settle_registerOperand_ok hA, settle_decSp_ok hsp, sp_writeReg_sp, memWrite_byte, ok_bind,
    readReg_writeReg_sp, ← haddr]
  rfl

theorem exec_push_error (s : State) {rA : Byte} (hA : rA.toNat < 8) (hsp : s.x[7].toNat = 0) :
    exec (.push rA) s = .next (s.faulted .memoryOutOfRange (-1)) := by
  rw [exec, execPush, settle_registerOperand_ok hA, settle_decSp_error hsp]

/-- Settles O16: the bytes by the opcode map, the stored byte and the other cells by reading after the one
write, the faults by the register byte's and the stack pointer's checks. -/
theorem pushStoresBelowStackPointer : Obligations.PushStoresBelowStackPointer :=
  ⟨fun rA rest => decodeWith_opcodeOf_cons defaultConfig_legal .push (rA :: rest),
    fun s _ hA hsp => ⟨_, exec_push_ok s hA hsp, rfl, Memory.get_set_self _ _ _,
      fun _ ha => Memory.get_set_ne _ _ _ _ ha.symm, rfl, rfl, rfl, rfl, rfl⟩,
    fun s _ hA hsp => exec_push_error s hA hsp,
    fun s _ hA => settle_registerOperand_error hA s _,
    fetchFaultsAtTop .push⟩

/-! ### POP -/

/-- The stack pointer after a write to another register. -/
theorem sp_writeReg_ne (s : State) (v : Byte) {r : Nat} (hr : r < 7) :
    sp (writeReg ⟨r, hr.trans (by decide)⟩ v s) = s.x[7] :=
  readReg_writeReg_ne s _ spIndex v (Fin.ne_of_lt hr)

section
variable (s : State) {rA p : Byte} (hA : rA.toNat < 8)
  (hp : sp (writeReg ⟨rA.toNat, hA⟩ (s.mem.get s.x[7].toNat) s) = p)
include hp

/-- POP increments `p`, the stack pointer as the register write leaves it (decision D23). -/
theorem exec_pop_ok (hle : p.toNat ≤ 254) :
    exec (.pop rA) s = .next { s with
      x := (s.x.set rA.toNat (s.mem.get s.x[7].toNat)).set 7 (p + 1), pc := s.pc + 2 } := by
  subst hp
  rw [exec, execPop, settle_registerOperand_ok hA, memRead_byte, ok_bind]
  exact settle_incSp_ok hle s _

theorem exec_pop_error (h255 : p.toNat = 255) :
    exec (.pop rA) s = .next (s.faulted .memoryOutOfRange 256) := by
  subst hp
  rw [exec, execPop, settle_registerOperand_ok hA, memRead_byte, ok_bind]
  exact settle_incSp_error h255 s _

end

/-- POP R7 leaves the popped byte plus 1: the increment overwrites what the pop wrote. -/
theorem exec_pop_sp_ok (s : State) (hle : (s.mem.get s.x[7].toNat).toNat ≤ 254) :
    exec (.pop 7) s = .next { s with x := s.x.set 7 (s.mem.get s.x[7].toNat + 1), pc := s.pc + 2 } := by
  simpa using exec_pop_ok s (rA := 7) (by decide) (sp_writeReg_sp s _) hle

/-- Settles O17: the bytes by the opcode map; for R0 to R6 the stack pointer moved is the one before the
register write, for R7 it is the popped byte; the faults by the register byte's and the stack pointer's checks. -/
theorem popLoadsAtStackPointer : Obligations.PopLoadsAtStackPointer :=
  ⟨fun rA rest => decodeWith_opcodeOf_cons defaultConfig_legal .pop (rA :: rest),
    fun s _ hA hle => exec_pop_ok s _ (sp_writeReg_ne s _ hA) hle,
    fun s _ hA h255 => exec_pop_error s _ (sp_writeReg_ne s _ hA) h255,
    exec_pop_sp_ok,
    fun s h255 => exec_pop_error s (by decide) (sp_writeReg_sp s _) h255,
    fun s _ hA => settle_registerOperand_error hA s _,
    fetchFaultsAtTop .pop⟩

end Sys2Proof.Machine
end

section
/-! JMP, JEQ and JNE (R130, R132, R134): each branch's next state, the frame included, and the two conditional
jumps side by side (R133). -/

namespace Sys2Proof.Machine

theorem exec_jmp_ok (s : State) {rA : Byte} (hA : rA.toNat < 8) :
    exec (.jmp rA) s = .next { s with pc := BitVec.ofNat 9 s.x[rA.toNat].toNat } := by
  rw [exec, execJmp, settle_registerOperand_ok hA, pure_ok, settle_ok, jumpTo_eq]; rfl

/-! ### The branches of the conditional jumps: E alone decides -/

section
variable {s : State} {rA : Byte} (hA : rA.toNat < 8)
include hA

theorem exec_jeq_taken (he : s.flags.e = true) :
    exec (.jeq rA) s = .next { s with pc := BitVec.ofNat 9 s.x[rA.toNat].toNat } := by
  rw [exec_jeq_ok s hA, if_pos he]

theorem exec_jeq_not_taken (he : s.flags.e = false) :
    exec (.jeq rA) s = .next { s with pc := s.pc + 2 } := by
  rw [exec_jeq_ok s hA, if_neg (Bool.eq_false_iff.mp he)]

theorem exec_jne_taken (he : s.flags.e = false) :
    exec (.jne rA) s = .next { s with pc := BitVec.ofNat 9 s.x[rA.toNat].toNat } := by
  rw [exec_jne_ok s hA, if_neg (Bool.eq_false_iff.mp he)]

theorem exec_jne_not_taken (he : s.flags.e = true) :
    exec (.jne rA) s = .next { s with pc := s.pc + 2 } := by
  rw [exec_jne_ok s hA, if_pos he]

end

/-- A register's value fits the nine bits of pc: a jump reaches exactly 0..255 (R131). -/
theorem toNat_jumpTarget (v : Byte) : (BitVec.ofNat 9 v.toNat).toNat = v.toNat :=
  (BitVec.toNat_ofNat _ _).trans (Nat.mod_eq_of_lt (by omega))

/-! ### The obligations -/

/-- Settles O18: the bytes by the opcode map, the two outcomes by the register byte's check. -/
theorem jmpTakesRegisterTarget : Obligations.JmpTakesRegisterTarget :=
  ⟨fun rA rest => decodeWith_opcodeOf_cons defaultConfig_legal .jmp (rA :: rest),
    fun s _ hA => exec_jmp_ok s hA,
    fun s _ hA => settle_registerOperand_error hA s _,
    fetchFaultsAtTop .jmp⟩

/-- Settles O19: the bytes by the opcode map, the branches by E, the fault by the register byte's check, which
comes before E is looked at. -/
theorem jeqJumpsWhenEqual : Obligations.JeqJumpsWhenEqual :=
  ⟨fun rA rest => decodeWith_opcodeOf_cons defaultConfig_legal .jeq (rA :: rest),
    fun _ _ hA he => exec_jeq_taken hA he,
    fun _ _ hA he => exec_jeq_not_taken hA he,
    fun s _ hA => settle_registerOperand_error hA s _,
    fetchFaultsAtTop .jeq⟩

/-- Settles O20: the bytes by the opcode map, the branches by E, the fault by the register byte's check, which
comes before E is looked at. -/
theorem jneJumpsWhenNotEqual : Obligations.JneJumpsWhenNotEqual :=
  ⟨fun rA rest => decodeWith_opcodeOf_cons defaultConfig_legal .jne (rA :: rest),
    fun _ _ hA he => exec_jne_taken hA he,
    fun _ _ hA he => exec_jne_not_taken hA he,
    fun s _ hA => settle_registerOperand_error hA s _,
    fetchFaultsAtTop .jne⟩

/-- Settles O34: for either value of E, one of the two jumps is taken and the other is not. -/
theorem jeqJneComplementary : Obligations.JeqJneComplementary := by
  intro s rA hA
  cases he : s.flags.e with
  | true => exact ⟨_, _, exec_jeq_taken hA he, exec_jne_not_taken hA he,
      fun _ => ⟨toNat_jumpTarget _, rfl⟩, nofun⟩
  | false => exact ⟨_, _, exec_jeq_not_taken hA he, exec_jne_taken hA he,
      nofun, fun _ => ⟨rfl, toNat_jumpTarget _⟩⟩

end Sys2Proof.Machine
end

section
/-! CALL and RET (R141, R142): the return address, which CALL checks before the stack, the next states with
their frames, and a RET that finds SP and its cell as a CALL left them (R143). -/

namespace Sys2Proof.Machine

/-! ### The return address -/

theorem returnAddress_ok (s : State) (h : s.pc.toNat + 2 ≤ 255) :
    returnAddress s = .ok (BitVec.ofNat 8 (s.pc.toNat + 2)) := if_pos (Nat.lt_succ_of_le h)

theorem returnAddress_error (s : State) (h : 255 < s.pc.toNat + 2) :
    returnAddress s = .error ⟨.memoryOutOfRange, 256⟩ := if_neg (Nat.not_lt.mpr h)

/-- A return address that CALL accepts fits the byte it is stored in. -/
theorem toNat_returnByte {n : Nat} (h : n ≤ 255) : (BitVec.ofNat 8 n).toNat = n :=
  (BitVec.toNat_ofNat _ _).trans (Nat.mod_eq_of_lt (Nat.lt_succ_of_le h))

/-! ### CALL -/

/-- The stack pointer a push leaves, as a number: it does not wrap (R120). -/
theorem toNat_sub_one {v : Byte} (h : 1 ≤ v.toNat) : (v - 1).toNat = v.toNat - 1 :=
  BitVec.toNat_sub_of_le h

section
variable (s : State) {rA : Byte} (hA : rA.toNat < 8)
include hA

theorem exec_call_ok (hpc : s.pc.toNat + 2 ≤ 255) (hsp : 1 ≤ s.x[7].toNat) :
    exec (.call rA) s = .next { s with
      x := s.x.set 7 (s.x[7] - 1)
      mem := s.mem.set (s.x[7].toNat - 1) (BitVec.ofNat 8 (s.pc.toNat + 2))
      pc := BitVec.ofNat 9 (if rA.toNat = 7 then s.x[7] - 1 else s.x[rA.toNat]).toNat } := by
  rw [exec, execCall, settle_registerOperand_ok hA, returnAddress_ok s hpc, ok_bind, settle_decSp_ok hsp,
    sp_writeReg_sp, memWrite_byte, ok_bind, pure_ok, settle_ok, jumpTo_eq, ← toNat_sub_one hsp,
    ← readReg_writeReg_sp s _ hA]
  rfl

theorem exec_call_error_returnAddress (hpc : 255 < s.pc.toNat + 2) :
    exec (.call rA) s = .next (s.faulted .memoryOutOfRange 256) := by
  rw [exec, execCall, settle_registerOperand_ok hA, returnAddress_error s hpc, error_bind, settle_error]; rfl

theorem exec_call_error_sp (hpc : s.pc.toNat + 2 ≤ 255) (hsp : s.x[7].toNat = 0) :
    exec (.call rA) s = .next (s.faulted .memoryOutOfRange (-1)) := by
  rw [exec, execCall, settle_registerOperand_ok hA, returnAddress_ok s hpc, ok_bind, settle_decSp_error hsp]

end

/-- CALL's target as a number: the register's value, with R7 read after the decrement (decision D23). -/
theorem toNat_callTarget (s : State) {r : Nat} (hr : r < 8) (hsp : 1 ≤ s.x[7].toNat) :
    (BitVec.ofNat 9 (if r = 7 then s.x[7] - 1 else s.x[r]).toNat).toNat =
      if r = 7 then s.x[7].toNat - 1 else s.x[r].toNat := by
  rw [toNat_jumpTarget, apply_ite BitVec.toNat, toNat_sub_one hsp]

/-- Settles O21: the bytes by the opcode map, the stored byte and the other cells by reading after the one
write, the faults by the checks of the register byte, the return address and the stack pointer. -/
theorem callPushesReturnAddress : Obligations.CallPushesReturnAddress :=
  ⟨fun rA rest => decodeWith_opcodeOf_cons defaultConfig_legal .call (rA :: rest),
    fun s _ hA hpc hsp => ⟨_, exec_call_ok s hA hpc hsp, rfl,
      (congrArg BitVec.toNat (Memory.get_set_self _ _ _)).trans (toNat_returnByte hpc),
      fun _ ha => Memory.get_set_ne _ _ _ _ ha.symm, toNat_callTarget s hA hsp, rfl, rfl, rfl, rfl⟩,
    fun s _ hA hpc => exec_call_error_returnAddress s hA hpc,
    fun s _ hA hpc hsp => exec_call_error_sp s hA hpc hsp,
    fun s _ hA => settle_registerOperand_error hA s _,
    fetchFaultsAtTop .call⟩

/-! ### RET -/

theorem exec_ret_ok (s : State) (hsp : s.x[7].toNat ≤ 254) :
    exec .ret s = .next { s with
      x := s.x.set 7 (s.x[7] + 1), pc := BitVec.ofNat 9 (s.mem.get s.x[7].toNat).toNat } := by
  rw [exec, execRet, memRead_byte, ok_bind, settle_incSp_ok hsp, pure_ok, settle_ok, jumpTo_eq]; rfl

theorem exec_ret_error (s : State) (hsp : s.x[7].toNat = 255) :
    exec .ret s = .next (s.faulted .memoryOutOfRange 256) := by
  rw [exec, execRet, memRead_byte, ok_bind, settle_incSp_error hsp]

/-- Settles O22: the byte by the opcode map, the two outcomes by the stack pointer's check. -/
theorem retPopsProgramCounter : Obligations.RetPopsProgramCounter :=
  ⟨decodeWith_opcodeOf_cons defaultConfig_legal .ret, exec_ret_ok, exec_ret_error⟩

/-! ### CALL, then RET -/

/-- RET over a byte stored below `p`: pc takes the byte, and the increment undoes CALL's decrement. -/
theorem exec_ret_of_stored {u : State} {p b : Byte} (hp : 1 ≤ p.toNat) (hsp : u.x[7] = p - 1)
    (htop : u.mem.get u.x[7].toNat = b) :
    exec .ret u = .next { u with x := u.x.set 7 p, pc := BitVec.ofNat 9 b.toNat } := by
  have hle : u.x[7].toNat ≤ 254 := by
    rw [hsp, toNat_sub_one hp]
    omega
  rw [exec_ret_ok u hle, htop, hsp, BitVec.sub_add_cancel]

/-- Settles O36: the CALL stored p + 2 at SP - 1, and the state RET starts from has that SP and that cell. -/
theorem callRetReturns : Obligations.CallRetReturns := by
  intro s rA hA hpc hsp
  refine ⟨_, exec_call_ok s hA hpc hsp, rfl, fun u hx hm => ?_⟩
  have hu : u.x[7] = s.x[7] - 1 := by rw [hx, Vector.getElem_set_self]
  have htop : u.mem.get u.x[7].toNat = BitVec.ofNat 8 (s.pc.toNat + 2) := by
    rw [hm, Vector.getElem_set_self, toNat_sub_one hsp, Memory.get_set_self]
  exact ⟨_, exec_ret_of_stored hsp hu htop, (toNat_jumpTarget _).trans (toNat_returnByte hpc),
    Vector.getElem_set_self _⟩

end Sys2Proof.Machine
end

section
/-! HLT (R150): its next state from every state, and the step that runs it wherever its one byte stands, the
last address included. -/

namespace Sys2Proof.Machine

/-! ### A fetch that finds an instruction -/

/-- The instruction the fetch finds is the one a running step executes (R70). -/
theorem stepWith_fetch_ok {c : Config} {s : State} {i : Instr} (hrun : s.run = .running)
    (h : fetch c s = .ok i) : stepWith c s = exec i s := by
  rw [stepWith_running c s hrun, stepRunning, h]

/-- Where pc is an address of memory, the byte there is the first the decoder sees. -/
theorem fetchWindow_cons {s : State} (hpc : s.pc.toNat ≤ 255) :
    fetchWindow s = s.mem.get s.pc.toNat :: bytesFrom s.mem (s.pc.toNat + 1) 2 :=
  if_pos (Nat.lt_succ_of_le hpc)

/-- HLT has no operand, so its opcode byte is all the fetch needs. -/
theorem fetch_hlt {c : Config} (hc : c.Legal) {s : State} (hpc : s.pc.toNat ≤ 255)
    (hop : s.mem.get s.pc.toNat = c.opcodeOf .hlt) : fetch c s = .ok .hlt := by
  rw [fetch, fetchWindow_cons hpc, hop, decodeWith_opcodeOf_cons hc]; rfl

/-! ### The instruction -/

theorem exec_hlt (s : State) : exec .hlt s = .next { s with run := .halted, pc := s.pc + 1 } := rfl

theorem stepWith_hlt {c : Config} (hc : c.Legal) {s : State} (hrun : s.run = .running)
    (hpc : s.pc.toNat ≤ 255) (hop : s.mem.get s.pc.toNat = c.opcodeOf .hlt) :
    stepWith c s = .next { s with run := .halted, pc := s.pc + 1 } :=
  (stepWith_fetch_ok hrun (fetch_hlt hc hpc hop)).trans (exec_hlt s)

/-- The pc's ninth bit holds the 256 past the last address: moving on by one from 0..255 does not wrap
(decision D8). -/
theorem toNat_pc_add_one {p : Pc} (hp : p.toNat ≤ 255) : (p + 1).toNat = p.toNat + 1 :=
  BitVec.toNat_add_of_lt (show p.toNat + 1 < 2 ^ 9 by omega)

/-- Settles O23: the byte by the opcode map, the next state by HLT's meaning; the HLT at 255 is fetched, since
no operand byte is missing, and its pc does not wrap. -/
theorem hltHalts : Obligations.HltHalts := by
  refine ⟨decodeWith_opcodeOf_cons defaultConfig_legal .hlt, exec_hlt, fun s hrun hpc hop => ?_⟩
  have hstep := stepWith_hlt defaultConfig_legal hrun hpc.le (hpc.symm ▸ hop)
  have hnext : (s.pc + 1).toNat = 256 := by rw [toNat_pc_add_one hpc.le, hpc]
  exact ⟨_, hstep, rfl, hnext⟩

end Sys2Proof.Machine
end

section
/-! An unknown opcode (R162): the step that finds no dispatch entry for the fetched byte, and no step after
it. -/

namespace Sys2Proof

/-- A first byte that is no opcode of the map ends the decoding, whatever bytes follow it or none (R66, R68). -/
theorem decodeWith_unknown_cons {c : Config} {op : Byte} (h : ∀ m, c.opcodeOf m ≠ op) (rest : List Byte) :
    decodeWith c (op :: rest) = .error (.unknownOpcode op) := by
  simp [decodeWith, (mnemonicOf_eq_none c op).2 h]

end Sys2Proof

namespace Sys2Proof.Machine

/-- The fetch raises UnknownOpcode with the byte at pc, at the last address too: no operand byte is looked for
(R162, R164). -/
theorem fetch_unknown {c : Config} {s : State} (hpc : s.pc.toNat ≤ 255)
    (hop : ∀ m, c.opcodeOf m ≠ s.mem.get s.pc.toNat) :
    fetch c s = .error ⟨.unknownOpcode, (s.mem.get s.pc.toNat).toNat⟩ := by
  rw [fetch, fetchWindow_cons hpc, decodeWith_unknown_cons hop]; rfl

/-- The whole next state of a running step on an unknown opcode (R161, R163). -/
theorem stepWith_unknown {c : Config} {s : State} (hrun : s.run = .running) (hpc : s.pc.toNat ≤ 255)
    (hop : ∀ m, c.opcodeOf m ≠ s.mem.get s.pc.toNat) :
    stepWith c s = .next (s.faulted .unknownOpcode (s.mem.get s.pc.toNat).toNat) :=
  stepWith_fetch_error hrun (fetch_unknown hpc hop)

/-- Settles O8: the step takes the fault the fetch raises, and the state it leads to is Faulted, where no step
is enabled. -/
theorem unknownOpcodeFaults : Obligations.UnknownOpcodeFaults := fun c _ hrun hpc hop =>
  ⟨_, stepWith_unknown hrun hpc hop, rfl, rfl, stepWith_faulted c _ rfl⟩

end Sys2Proof.Machine
end

section
/-! A PUSH between a CALL and its RET (R187): RET takes its target from the cell at SP, whatever wrote it, and
uncovers the return address below. -/

namespace Sys2Proof.Machine

/-- A PUSH followed by a RET jumps to the value pushed, and leaves SP and the cell it names as they were before
the PUSH. -/
theorem exec_push_ret (t : State) {rB : Byte} (hB : rB.toNat < 8) (hsp : 1 ≤ t.x[7].toNat) :
    ∃ u v, exec (.push rB) t = .next u ∧ exec .ret u = .next v ∧
      u.mem.get u.x[7].toNat = (if rB.toNat = 7 then t.x[7] - 1 else t.x[rB.toNat]) ∧
      v.pc.toNat = (u.mem.get u.x[7].toNat).toNat ∧
      v.x[7] = t.x[7] ∧ v.mem.get t.x[7].toNat = t.mem.get t.x[7].toNat := by
  obtain ⟨-, hpush, -⟩ := pushStoresBelowStackPointer
  obtain ⟨u, hu, hux, hutop, huframe, -⟩ := hpush t rB hB hsp
  have hx : u.x[7] = t.x[7] - 1 := by rw [hux, Vector.getElem_set_self]
  have htop : u.mem.get u.x[7].toNat = (if rB.toNat = 7 then t.x[7] - 1 else t.x[rB.toNat]) := by
    rw [hx, toNat_sub_one hsp, hutop]
  exact ⟨u, _, hu, exec_ret_of_stored hsp hx rfl, htop, toNat_jumpTarget _, Vector.getElem_set_self _,
    huframe _ (by omega)⟩

/-- Settles O37: RET's target is the byte at SP; after the CALL, the PUSH and the RET act on the cell below the
return address, which is left on top of the stack. -/
theorem retJumpsToWhateverIsOnTop : Obligations.RetJumpsToWhateverIsOnTop := by
  refine ⟨fun s hsp => ⟨_, exec_ret_ok s hsp, toNat_jumpTarget _⟩, fun s rA rB hA hB hpc hsp => ?_⟩
  have hsp1 : 1 ≤ s.x[7].toNat := by omega
  obtain ⟨-, hcall, -⟩ := callPushesReturnAddress
  obtain ⟨t, ht, htx, htret, -⟩ := hcall s rA hA hpc hsp1
  have hx : t.x[7] = s.x[7] - 1 := by rw [htx, Vector.getElem_set_self]
  have hxnat : t.x[7].toNat = s.x[7].toNat - 1 := by rw [hx, toNat_sub_one hsp1]
  obtain ⟨u, v, hu, hv, htop, hvpc, hvx, hvmem⟩ := exec_push_ret t hB (by omega)
  refine ⟨t, u, v, ht, hu, hv, hvpc, fun h7 => ?_, hvx.trans hx, ?_⟩
  · have hxB : t.x[rB.toNat] = s.x[rB.toNat] := by
      simp only [htx, Vector.getElem_set_ne _ _ h7.symm]
    rw [hvpc, htop, if_neg h7, hxB]
  · rw [hvx, hvmem, hxnat, htret]

end Sys2Proof.Machine
end

section
/-! The flags over a run without a CMP (R186): a step whose opcode byte is not CMP's executes another
instruction or faults, and neither writes the flags. -/

namespace Sys2Proof

/-! ### The instruction decoded has the mnemonic of the opcode byte -/

section
variable {m : Mnemonic} {bs rest : List Byte} {i : Instr}

theorem decodeOneOperand_mnemonic {f : Byte → Instr} (hf : ∀ b, (f b).mnemonic = m)
    (h : decodeOneOperand f bs = .ok (i, rest)) : i.mnemonic = m := by
  cases bs with
  | nil => cases h
  | cons b bs => cases h; exact hf b

theorem decodeTwoOperands_mnemonic {f : Byte → Byte → Instr} (hf : ∀ a b, (f a b).mnemonic = m)
    (h : decodeTwoOperands f bs = .ok (i, rest)) : i.mnemonic = m := by
  match bs with
  | [] | [_] => cases h
  | a :: b :: _ => cases h; exact hf a b

theorem decodeOperands_mnemonic (h : decodeOperands m bs = .ok (i, rest)) : i.mnemonic = m := by
  cases m with
  | ldi | add | mul | cmp => exact decodeTwoOperands_mnemonic (fun _ _ => rfl) h
  | prn | push | pop | jmp | jeq | jne | call => exact decodeOneOperand_mnemonic (fun _ => rfl) h
  | ret | hlt => cases h; rfl

/-- A first byte that decodes is the opcode of the instruction it decodes to (R67, R68). -/
theorem opcodeOf_decodeWith_cons {c : Config} (hc : c.Legal) {op : Byte}
    (h : decodeWith c (op :: bs) = .ok (i, rest)) : c.opcodeOf i.mnemonic = op := by
  cases hm : mnemonicOf c op with
  | none => simp [decodeWith, hm] at h
  | some n =>
    have hn : decodeOperands n bs = .ok (i, rest) := by simpa [decodeWith, hm] using h
    rw [decodeOperands_mnemonic hn]
    exact (mnemonicOf_eq_some c hc op n).mp hm

end

end Sys2Proof

namespace Sys2Proof.Machine

/-- The byte at pc is the opcode of the instruction the fetch finds (R70). -/
theorem opcodeOf_fetch {c : Config} (hc : c.Legal) {s : State} {i : Instr} (h : fetch c s = .ok i) :
    c.opcodeOf i.mnemonic = s.mem.get s.pc.toNat := by
  obtain hpc | hpc := Nat.lt_or_ge s.pc.toNat memSize
  · rw [fetch, fetchWindow_cons (Nat.le_of_lt_succ hpc)] at h
    split at h
    next hd => cases h; exact opcodeOf_decodeWith_cons hc hd
    next => cases h
  · rw [fetch, fetchWindow_none s hpc] at h
    cases h

/-! ### Steps and runs that reach a next state -/

/-- A step that reaches a next state executed the instruction fetched or took the fault the fetch raised (R70). -/
theorem stepWith_eq_next {c : Config} {s t : State} (h : stepWith c s = .next t) :
    (∃ i, fetch c s = .ok i ∧ exec i s = .next t) ∨ (∃ e, fetch c s = .error e ∧ takeFault e s = t) := by
  cases hrun : s.run with
  | halted => rw [stepWith_halted c s hrun] at h; cases h
  | faulted => rw [stepWith_faulted c s hrun] at h; cases h
  | running =>
    rw [stepWith_running c s hrun] at h
    obtain ⟨i, hi, hs⟩ | ⟨e, he, hs⟩ := stepRunning_cases c s
    · exact .inl ⟨i, hi, hs.symm.trans h⟩
    · exact .inr ⟨e, he, Host.Outcome.next.inj (hs.symm.trans h)⟩

/-- A run of `k + 1` steps that reaches a state is a step followed by a run of `k`. -/
theorem core_run_succ_eq_next {k : Nat} {s t : State}
    (h : Host.Core.run Sys2Proof.core (k + 1) s = .next t) :
    ∃ u : State, step s = .next u ∧ Host.Core.run Sys2Proof.core k u = .next t := by
  cases hs : step s with
  | next u => exact ⟨u, rfl, (core_run_succ k s u hs).symm.trans h⟩
  | fault r => cases (run_succ_fault Sys2Proof.core k s r hs).symm.trans h
  | refused r => cases (run_succ_refused Sys2Proof.core k s r hs).symm.trans h

/-! ### The flags -/

/-- A step at a byte that is not CMP's opcode leaves the flags (R26). -/
theorem step_flags {s t : State} (hop : s.mem.get s.pc.toNat ≠ defaultConfig.opcodeOf .cmp)
    (h : step s = .next t) : t.flags = s.flags := by
  obtain ⟨i, hi, he⟩ | ⟨e, -, rfl⟩ := stepWith_eq_next h
  · refine exec_flags (fun hcmp => hop ?_) he
    rw [← opcodeOf_fetch defaultConfig_legal hi, hcmp]
  · rfl

/-- A run that stands at no CMP leaves the flags. -/
theorem core_run_flags {k : Nat} {s t : State}
    (hop : ∀ (j : Nat) (u : State), j < k → Host.Core.run Sys2Proof.core j s = .next u →
      u.mem.get u.pc.toNat ≠ defaultConfig.opcodeOf .cmp)
    (h : Host.Core.run Sys2Proof.core k s = .next t) : t.flags = s.flags := by
  induction k generalizing s with
  | zero => cases h; rfl
  | succ k ih =>
    obtain ⟨s', hs, hrun⟩ := core_run_succ_eq_next h
    have hrest : t.flags = s'.flags := ih (fun j u hj hu =>
      hop (j + 1) u (Nat.succ_lt_succ hj) ((core_run_succ j s s' hs).trans hu)) hrun
    exact hrest.trans (step_flags (hop 0 s k.succ_pos rfl) hs)

/-- Settles O39: the run leaves the flags, by induction on its steps, and JEQ and JNE read the E they hold. -/
theorem flagsPersistUntilNextCompare : Obligations.FlagsPersistUntilNextCompare := by
  intro k s t hop h
  have hflags := core_run_flags hop h
  refine ⟨hflags, fun rA hA => ?_⟩
  rw [← hflags]
  exact ⟨exec_jeq_ok t hA, exec_jne_ok t hA⟩

end Sys2Proof.Machine
end

section
/-! Decoding and encoding are inverse to each other under every legal opcode map (R60, R61, R64, R66, R67), and
what the default opcode values add: the words of the table, the lengths, and the count of illegal bytes. -/

namespace Sys2Proof

/-! ### Decode of encode -/

theorem decodeOperands_operandBytes (i : Instr) (rest : List Byte) :
    decodeOperands i.mnemonic (i.operandBytes ++ rest) = .ok (i, rest) := by
  cases i <;> rfl

/-- Settles O1: the opcode byte selects the mnemonic, and its format reads the operand bytes back. -/
theorem decodeOfEncode : Obligations.DecodeOfEncode := fun _ hc i rest =>
  (decodeWith_opcodeOf_cons hc i.mnemonic (i.operandBytes ++ rest)).trans (decodeOperands_operandBytes i rest)

/-! ### Encode of decode -/

section
variable {m : Mnemonic} {bs rest : List Byte} {i : Instr}

theorem decodeOneOperand_eq_append {f : Byte → Instr} (hf : ∀ b, (f b).operandBytes = [b])
    (h : decodeOneOperand f bs = .ok (i, rest)) : bs = i.operandBytes ++ rest := by
  cases bs with
  | nil => cases h
  | cons b bs => cases h; rw [hf]; rfl

theorem decodeTwoOperands_eq_append {f : Byte → Byte → Instr} (hf : ∀ a b, (f a b).operandBytes = [a, b])
    (h : decodeTwoOperands f bs = .ok (i, rest)) : bs = i.operandBytes ++ rest := by
  match bs with
  | [] | [_] => cases h
  | a :: b :: _ => cases h; rw [hf]; rfl

theorem decodeOperands_eq_append (h : decodeOperands m bs = .ok (i, rest)) :
    bs = i.operandBytes ++ rest := by
  cases m with
  | ldi | add | mul | cmp => exact decodeTwoOperands_eq_append (fun _ _ => rfl) h
  | prn | push | pop | jmp | jeq | jne | call => exact decodeOneOperand_eq_append (fun _ => rfl) h
  | ret | hlt => cases h; rfl

/-- The bytes after an opcode that decode are the operands of the instruction and the rest (R67, R68). -/
theorem eq_append_of_decodeWith_cons {c : Config} {op : Byte}
    (h : decodeWith c (op :: bs) = .ok (i, rest)) : bs = i.operandBytes ++ rest := by
  cases hm : mnemonicOf c op with
  | none => simp [decodeWith, hm] at h
  | some n => exact decodeOperands_eq_append (m := n) (by simpa [decodeWith, hm] using h)

end

/-- Settles O2: the first byte is the opcode of the instruction, the others its operand bytes and the rest. -/
theorem encodeOfDecode : Obligations.EncodeOfDecode := by
  intro c hc bs rest i h
  cases bs with
  | nil => cases h
  | cons op bs =>
    have hop := opcodeOf_decodeWith_cons hc h
    have hbs := eq_append_of_decodeWith_cons h
    rw [encodeWith, hop, List.cons_append, ← hbs]

/-! ### The default opcode values -/

/-- Settles O3: each word is the encoding of its instruction, so O1 decodes it. -/
theorem specWordsDecode : Obligations.SpecWordsDecode := by
  have hword : ∀ i : Instr, decode (encode i) = .ok (i, []) := fun i =>
    (congrArg decode (List.append_nil _).symm).trans (decodeOfEncode defaultConfig defaultConfig_legal i [])
  exact ⟨hword (.ldi 0 8), hword (.prn 0), hword (.add 1 2), hword (.mul 0 1), hword (.cmp 3 4),
    hword (.push 5), hword (.pop 6), hword (.jmp 2), hword (.jeq 3), hword (.jne 3), hword (.call 1),
    hword .ret, hword .hlt⟩

/-- Settles O4: the table's length against the opcode's two top bits, mnemonic by mnemonic. -/
theorem lengthIsTopBitsPlusOne : Obligations.LengthIsTopBitsPlusOne := by
  intro m
  cases m <;> rfl

theorem length_allMnemonics : allMnemonics.length = 13 := rfl

theorem nodup_allMnemonics : allMnemonics.Nodup := by decide

/-- The byte values that select an instruction are the map's thirteen, whatever legal map it is. -/
theorem filter_isSome_mnemonicOf_perm {c : Config} (hc : c.Legal) :
    ((List.range 256).filter fun n => (mnemonicOf c (BitVec.ofNat 8 n)).isSome).Perm
      (allMnemonics.map fun m => (c.opcodeOf m).toNat) := by
  have hinj : Function.Injective fun m => (c.opcodeOf m).toNat :=
    fun m n h => hc.injective m n (BitVec.eq_of_toNat_eq h)
  refine (List.perm_ext_iff_of_nodup (List.nodup_range.filter _) (nodup_allMnemonics.map hinj)).mpr fun n => ?_
  simp only [List.mem_filter, List.mem_range, List.mem_map, Option.isSome_iff_exists,
    mnemonicOf_eq_some c hc, mem_allMnemonics, true_and]
  constructor
  · rintro ⟨hn, m, hm⟩
    exact ⟨m, by rw [hm, BitVec.toNat_ofNat, Nat.mod_eq_of_lt hn]⟩
  · rintro ⟨m, rfl⟩
    exact ⟨(c.opcodeOf m).isLt, m, by simp⟩

/-- Thirteen of the 256 byte values select an instruction, so 243 do not. -/
theorem length_filter_isNone_mnemonicOf {c : Config} (hc : c.Legal) :
    ((List.range 256).filter fun n => (mnemonicOf c (BitVec.ofNat 8 n)).isNone).length = 243 := by
  have hlegal := (filter_isSome_mnemonicOf_perm hc).length_eq
  have hsplit := (List.filter_append_perm (fun n => (mnemonicOf c (BitVec.ofNat 8 n)).isSome)
    (List.range 256)).length_eq
  rw [List.length_map, length_allMnemonics] at hlegal
  simp only [List.length_append, hlegal, List.length_range, Option.not_isSome] at hsplit
  omega

/-- Settles O5: the count holds of every legal map; that 0x00 and 0xFF are no opcode is read off the table. -/
theorem illegalOpcodeBytes : Obligations.IllegalOpcodeBytes :=
  ⟨length_filter_isNone_mnemonicOf defaultConfig_legal,
    decodeWith_unknown_cons (by intro m; cases m <;> decide),
    decodeWith_unknown_cons (by intro m; cases m <;> decide)⟩

end Sys2Proof
end

section
/-! The fetch and the step: which bytes the fetch reads (R70), the faults it can raise (R71, R164), and everything
a step that reaches a next state can have done. -/

namespace Sys2Proof

theorem Mnemonic.length_pos (m : Mnemonic) : 0 < m.length := by
  cases m <;> decide

/-- Operand bytes run out only where the format asks for one more than there are (R61). -/
theorem decodeOperands_eq_error {m : Mnemonic} {bs : List Byte} {e : DecodeError}
    (h : decodeOperands m bs = .error e) : e = .missingOperand (bs.length + 1) ∧ bs.length + 1 < m.length := by
  cases m with
  | ret | hlt => cases h
  | prn | push | pop | jmp | jeq | jne | call =>
    cases bs with
    | nil => cases h; exact ⟨rfl, by decide⟩
    | cons b bs => cases h
  | ldi | add | mul | cmp =>
    match bs with
    | [] | [_] => cases h; exact ⟨rfl, by simp [Mnemonic.length]⟩
    | _ :: _ :: _ => cases h

end Sys2Proof

namespace Sys2Proof.Machine

/-! ### The bytes the fetch reads -/

/-- The window ends after `n` bytes or at the top of memory, whichever comes first (R41, R43). -/
theorem length_bytesFrom (m : Memory) (n a : Nat) : (bytesFrom m a n).length = min n (256 - a) := by
  induction n generalizing a with
  | zero => simp [bytesFrom]
  | succ n ih =>
    by_cases ha : a < memSize
    · have ha' : a < 256 := ha
      rw [bytesFrom, if_pos ha, List.length_cons, ih]
      omega
    · have ha' : ¬ a < 256 := ha
      rw [bytesFrom, if_neg ha, List.length_nil]
      omega

theorem getElem?_bytesFrom (m : Memory) {n a k : Nat} (hk : k < n) (hak : a + k ≤ 255) :
    (bytesFrom m a n)[k]? = some (m.get (a + k)) := by
  induction n generalizing a k with
  | zero => exact absurd hk (Nat.not_lt_zero k)
  | succ n ih =>
    have ha : a < memSize := Nat.lt_succ_of_le (by omega)
    rw [bytesFrom, if_pos ha]
    cases k with
    | zero => rfl
    | succ k =>
      rw [List.getElem?_cons_succ, ih (by omega) (by omega), Nat.add_right_comm]
      rfl

/-- Bytes that stand at pc begin the window, as long as no instruction is longer than it (R70). -/
theorem isPrefix_fetchWindow {s : State} {bs : List Byte} (hlen : bs.length ≤ 3) (h : BytesAtPc s bs) :
    bs <+: fetchWindow s := by
  rw [List.prefix_iff_getElem?]
  intro k hk
  obtain ⟨hle, hget⟩ := h k bs[k] (List.getElem?_eq_getElem hk)
  rw [fetchWindow, getElem?_bytesFrom s.mem (show k < maxInstrLength from hk.trans_le hlen) hle, hget]

theorem length_encodeWith (c : Config) (i : Instr) : (encodeWith c i).length = i.mnemonic.length := by
  cases i <;> rfl

/-- The fetch finds the instruction whose encoding stands at pc. -/
theorem fetch_of_bytesAtPc {c : Config} (hc : c.Legal) {s : State} {i : Instr}
    (h : BytesAtPc s (encodeWith c i)) : fetch c s = .ok i := by
  have hlen : (encodeWith c i).length ≤ 3 := length_encodeWith c i ▸ i.mnemonic.length_le_three
  obtain ⟨rest, hw⟩ := isPrefix_fetchWindow hlen h
  rw [fetch, ← hw, decodeOfEncode c hc i rest]

/-- An instruction that is fetched lies inside memory with all its bytes (R71). -/
theorem pc_add_length_le_of_fetch {c : Config} (hc : c.Legal) {s : State} {i : Instr}
    (h : fetch c s = .ok i) : s.pc.toNat + i.mnemonic.length ≤ 256 := by
  unfold fetch at h
  split at h
  next j rest hd =>
    cases h
    have hlen := congrArg List.length (encodeOfDecode c hc _ _ _ hd)
    have hpos : 0 < i.mnemonic.length := i.mnemonic.length_pos
    rw [fetchWindow, length_bytesFrom, List.length_append, length_encodeWith] at hlen
    omega
  next => cases h

/-! ### The faults of the fetch -/

theorem fetch_past_top (c : Config) {s : State} (hpc : 256 ≤ s.pc.toNat) :
    fetch c s = .error ⟨.memoryOutOfRange, s.pc.toNat⟩ := by
  rw [fetch, fetchWindow_none s hpc]; rfl

/-- Everything the fetch can raise (R161): a missing operand byte is always reported as address 256, because the
bytes there are end at the top of memory. -/
theorem fetch_eq_error {c : Config} {s : State} {e : Raised} (h : fetch c s = .error e) :
    (256 ≤ s.pc.toNat ∧ e = ⟨.memoryOutOfRange, s.pc.toNat⟩) ∨
    (∃ b : Byte, e = ⟨.unknownOpcode, b.toNat⟩) ∨ e = ⟨.memoryOutOfRange, 256⟩ := by
  obtain hpc | hpc := Nat.lt_or_ge s.pc.toNat 256
  · rw [fetch, fetchWindow_cons (Nat.le_of_lt_succ hpc), decodeWith] at h
    cases hm : mnemonicOf c (s.mem.get s.pc.toNat) with
    | none =>
      rw [hm] at h
      cases h
      exact .inr (.inl ⟨_, rfl⟩)
    | some m =>
      rw [hm] at h
      cases hd : decodeOperands m (bytesFrom s.mem (s.pc.toNat + 1) 2) with
      | ok p => simp [hd] at h
      | error d =>
        obtain ⟨rfl, hlt⟩ := decodeOperands_eq_error hd
        have hlen := m.length_le_three
        rw [length_bytesFrom] at hlt
        have hinfo : s.pc.toNat + (min 2 (256 - (s.pc.toNat + 1)) + 1) = 256 := by omega
        simp only [hd, fetchRaise, length_bytesFrom] at h
        cases h
        exact .inr (.inr (congrArg (Raised.mk _) (by exact_mod_cast hinfo)))
  · rw [fetch_past_top c hpc] at h
    cases h
    exact .inl ⟨hpc, rfl⟩

/-! ### The obligations -/

/-- Settles O6: the fetch reads the encoding back, under the default map as under every legal one. -/
theorem stepRunsInstructionAtPc : Obligations.StepRunsInstructionAtPc :=
  ⟨fun _ hc _ _ hrun h => stepWith_fetch_ok hrun (fetch_of_bytesAtPc hc h),
    fun _ _ hrun h => stepWith_fetch_ok hrun (fetch_of_bytesAtPc defaultConfig_legal h)⟩

/-- Settles O7: a running step takes the fetch's fault or answers as the meaning does, which is always a next
state. -/
theorem stepEnabledExactlyWhileRunning : Obligations.StepEnabledExactlyWhileRunning := by
  refine fun s => ⟨fun hrun => ?_, stepWith_halted defaultConfig s, stepWith_faulted defaultConfig s⟩
  cases h : fetch defaultConfig s with
  | ok i =>
    obtain ⟨t, ht⟩ := exec_isNext i s
    exact ⟨t, (stepWith_fetch_ok hrun h).trans ht⟩
  | error e => exact ⟨_, stepWith_fetch_error hrun h⟩

/-- Settles O9: the three faults of the fetch, each taken by the running step. -/
theorem fetchFaultsInOrder : Obligations.FetchFaultsInOrder := fun c hc _ hrun =>
  ⟨fun hpc => stepWith_fetch_error hrun (fetch_past_top c hpc),
    fun hpc hop => stepWith_unknown hrun hpc hop,
    fun _ hpc hop htop => stepWith_operand_past_top hc hrun hpc hop.symm htop⟩

end Sys2Proof.Machine
end

section
/-! What one instruction and one step can do. An instruction completes, and `Completes` is its whole next state, or
it takes one of the faults of R161's table; a step may also take a fault of the fetch. -/

namespace Sys2Proof.Machine

/-! ### A register byte that names no register -/

theorem registerOperand_error_of_find? {rA b : Byte} (h : [rA].find? (fun r => 8 ≤ r.toNat) = some b) :
    registerOperand rA = .error ⟨.invalidRegisterIndex, b.toNat⟩ := by
  have hb : 8 ≤ b.toNat := by simpa using List.find?_some h
  obtain rfl : b = rA := List.mem_singleton.mp (List.mem_of_find?_eq_some h)
  exact registerOperand_error b (Nat.not_lt.mpr hb)

theorem registerOperands_error_of_find? {rA rB b : Byte}
    (h : [rA, rB].find? (fun r => 8 ≤ r.toNat) = some b) :
    registerOperands rA rB = .error ⟨.invalidRegisterIndex, b.toNat⟩ := by
  obtain hA | hA := Nat.lt_or_ge rA.toNat 8
  · have hB : [rB].find? (fun r => 8 ≤ r.toNat) = some b := by
      rwa [List.find?_cons_of_neg (by simpa using hA)] at h
    rw [registerOperands, registerOperand_ok rA hA, ok_bind, registerOperand_error_of_find? hB, error_bind]
  · obtain rfl : rA = b := by
      rw [List.find?_cons_of_pos (by simpa using hA)] at h
      exact Option.some.inj h
    exact registerOperands_error_first rA rB (Nat.not_lt.mpr hA)

/-- An effect whose first part raises is that fault. -/
theorem settle_bind_error {α : Type} {r : Except Raised α} {e : Raised} (h : r = .error e) (s : State)
    (f : α → Except Raised State) : settle s (r >>= f) = .next (s.faulted e.cause e.info) := by
  rw [h, error_bind, settle_error]; rfl

/-- Settles O10: the check of the register bytes is the first part of every effect that has such a byte. -/
theorem invalidRegisterFaultsFirst : Obligations.InvalidRegisterFaultsFirst := by
  intro i s b h
  cases i with
  | ldi | prn | push | pop | jmp | jeq | jne | call =>
    exact settle_bind_error (registerOperand_error_of_find? h) s _
  | add | mul | cmp => exact settle_bind_error (registerOperands_error_of_find? h) s _
  | ret | hlt => cases h

/-! ### What one instruction can do -/

/-- The instruction completes from `s`: its register bytes name registers, its own checks pass, and the whole next
state is the one given (R100 to R150). -/
inductive Completes (s : State) : Instr → State → Prop
  | ldi {rA : Byte} (imm8 : Byte) (hA : rA.toNat < 8) :
      Completes s (.ldi rA imm8) { s with x := s.x.set rA.toNat imm8, pc := s.pc + 3 }
  | prn {rA : Byte} (hA : rA.toNat < 8) :
      Completes s (.prn rA) { s with out := s.out ++ [s.x[rA.toNat]], pc := s.pc + 2 }
  | add {rA rB : Byte} (hA : rA.toNat < 8) (hB : rB.toNat < 8) :
      Completes s (.add rA rB) { s with
        x := s.x.set rA.toNat (trunc8 (s.x[rA.toNat].toNat + s.x[rB.toNat].toNat)), pc := s.pc + 3 }
  | mul {rA rB : Byte} (hA : rA.toNat < 8) (hB : rB.toNat < 8) :
      Completes s (.mul rA rB) { s with
        x := s.x.set rA.toNat (trunc8 (s.x[rA.toNat].toNat * s.x[rB.toNat].toNat)), pc := s.pc + 3 }
  | cmp {rA rB : Byte} (hA : rA.toNat < 8) (hB : rB.toNat < 8) :
      Completes s (.cmp rA rB) { s with
        flags := compareFlags s.x[rA.toNat] s.x[rB.toNat], pc := s.pc + 3 }
  | push {rA : Byte} (hA : rA.toNat < 8) (hsp : 1 ≤ s.x[7].toNat) :
      Completes s (.push rA) { s with
        x := s.x.set 7 (s.x[7] - 1)
        mem := s.mem.set (s.x[7].toNat - 1) (if rA.toNat = 7 then s.x[7] - 1 else s.x[rA.toNat])
        pc := s.pc + 2 }
  /-- `p` is the stack pointer as POP's register write leaves it (decision D23) -/
  | pop {rA p : Byte} (hA : rA.toNat < 8)
      (hp : sp (writeReg ⟨rA.toNat, hA⟩ (s.mem.get s.x[7].toNat) s) = p) (hle : p.toNat ≤ 254) :
      Completes s (.pop rA) { s with
        x := (s.x.set rA.toNat (s.mem.get s.x[7].toNat)).set 7 (p + 1), pc := s.pc + 2 }
  | jmp {rA : Byte} (hA : rA.toNat < 8) :
      Completes s (.jmp rA) { s with pc := BitVec.ofNat 9 s.x[rA.toNat].toNat }
  | jeq {rA : Byte} (hA : rA.toNat < 8) :
      Completes s (.jeq rA) { s with
        pc := if s.flags.e = true then BitVec.ofNat 9 s.x[rA.toNat].toNat else s.pc + 2 }
  | jne {rA : Byte} (hA : rA.toNat < 8) :
      Completes s (.jne rA) { s with
        pc := if s.flags.e = true then s.pc + 2 else BitVec.ofNat 9 s.x[rA.toNat].toNat }
  | call {rA : Byte} (hA : rA.toNat < 8) (hpc : s.pc.toNat + 2 ≤ 255) (hsp : 1 ≤ s.x[7].toNat) :
      Completes s (.call rA) { s with
        x := s.x.set 7 (s.x[7] - 1)
        mem := s.mem.set (s.x[7].toNat - 1) (BitVec.ofNat 8 (s.pc.toNat + 2))
        pc := BitVec.ofNat 9 (if rA.toNat = 7 then s.x[7] - 1 else s.x[rA.toNat]).toNat }
  | ret (hsp : s.x[7].toNat ≤ 254) :
      Completes s .ret { s with
        x := s.x.set 7 (s.x[7] + 1), pc := BitVec.ofNat 9 (s.mem.get s.x[7].toNat).toNat }
  | hlt : Completes s .hlt { s with run := .halted, pc := s.pc + 1 }

/-- A byte past 254 is 255: the increment after a pop has one value to refuse (R120). -/
theorem toNat_le_254_or_eq_255 (p : Byte) : p.toNat ≤ 254 ∨ p.toNat = 255 := by
  have hlt := p.isLt
  omega

/-- With every register byte in range, the instruction completes or its own check raises an address next to
memory (R120, R141). -/
theorem exec_completes_or_out_of_range {i : Instr} (hok : ∀ r ∈ i.registerOperands, r.toNat < 8) (s : State) :
    (∃ t, exec i s = .next t ∧ Completes s i t) ∨
    ∃ a : Int, (a = -1 ∨ a = 256) ∧ exec i s = .next (s.faulted .memoryOutOfRange a) := by
  cases i with
  | hlt => exact .inl ⟨_, exec_hlt s, .hlt⟩
  | ret =>
    obtain hle | h255 := toNat_le_254_or_eq_255 s.x[7]
    · exact .inl ⟨_, exec_ret_ok s hle, .ret hle⟩
    · exact .inr ⟨256, .inr rfl, exec_ret_error s h255⟩
  | ldi rA imm8 =>
    have hA : rA.toNat < 8 := hok rA (.head _)
    exact .inl ⟨_, exec_ldi_ok s imm8 hA, .ldi imm8 hA⟩
  | prn rA =>
    have hA : rA.toNat < 8 := hok rA (.head _)
    exact .inl ⟨_, exec_prn_ok s hA, .prn hA⟩
  | jmp rA =>
    have hA : rA.toNat < 8 := hok rA (.head _)
    exact .inl ⟨_, exec_jmp_ok s hA, .jmp hA⟩
  | jeq rA =>
    have hA : rA.toNat < 8 := hok rA (.head _)
    exact .inl ⟨_, exec_jeq_ok s hA, .jeq hA⟩
  | jne rA =>
    have hA : rA.toNat < 8 := hok rA (.head _)
    exact .inl ⟨_, exec_jne_ok s hA, .jne hA⟩
  | add rA rB =>
    have hA : rA.toNat < 8 := hok rA (.head _)
    have hB : rB.toNat < 8 := hok rB (.tail _ (.head _))
    exact .inl ⟨_, exec_add_ok s hA hB, .add hA hB⟩
  | mul rA rB =>
    have hA : rA.toNat < 8 := hok rA (.head _)
    have hB : rB.toNat < 8 := hok rB (.tail _ (.head _))
    exact .inl ⟨_, exec_mul_ok s hA hB, .mul hA hB⟩
  | cmp rA rB =>
    have hA : rA.toNat < 8 := hok rA (.head _)
    have hB : rB.toNat < 8 := hok rB (.tail _ (.head _))
    exact .inl ⟨_, exec_cmp_ok (registerOperands_ok rA rB hA hB) s, .cmp hA hB⟩
  | push rA =>
    have hA : rA.toNat < 8 := hok rA (.head _)
    obtain hsp | hsp := Nat.eq_zero_or_pos s.x[7].toNat
    · exact .inr ⟨-1, .inl rfl, exec_push_error s hA hsp⟩
    · exact .inl ⟨_, exec_push_ok s hA hsp, .push hA hsp⟩
  | pop rA =>
    have hA : rA.toNat < 8 := hok rA (.head _)
    obtain hle | h255 := toNat_le_254_or_eq_255 (sp (writeReg ⟨rA.toNat, hA⟩ (s.mem.get s.x[7].toNat) s))
    · exact .inl ⟨_, exec_pop_ok s hA rfl hle, .pop hA rfl hle⟩
    · exact .inr ⟨256, .inr rfl, exec_pop_error s hA rfl h255⟩
  | call rA =>
    have hA : rA.toNat < 8 := hok rA (.head _)
    obtain hpc | hpc := Nat.lt_or_ge 255 (s.pc.toNat + 2)
    · exact .inr ⟨256, .inr rfl, exec_call_error_returnAddress s hA hpc⟩
    · obtain hsp | hsp := Nat.eq_zero_or_pos s.x[7].toNat
      · exact .inr ⟨-1, .inl rfl, exec_call_error_sp s hA hpc hsp⟩
      · exact .inl ⟨_, exec_call_ok s hA hpc hsp, .call hA hpc hsp⟩

/-! ### The records of R161's table -/

theorem legal_unknownOpcode (b : Byte) (p : Pc) : FaultRecord.legal ⟨.unknownOpcode, p, b.toNat⟩ :=
  .inl ⟨rfl, Int.natCast_nonneg _, Int.ofNat_le.mpr (Nat.le_of_lt_succ b.isLt)⟩

theorem legal_memoryOutOfRange {a : Int} (ha : a = -1 ∨ a = 256) (p : Pc) :
    FaultRecord.legal ⟨.memoryOutOfRange, p, a⟩ :=
  .inr (.inl ⟨rfl, ha⟩)

theorem legal_invalidRegisterIndex {b : Byte} (hb : 8 ≤ b.toNat) (p : Pc) :
    FaultRecord.legal ⟨.invalidRegisterIndex, p, b.toNat⟩ :=
  .inr (.inr ⟨rfl, Int.ofNat_le.mpr hb, Int.ofNat_le.mpr (Nat.le_of_lt_succ b.isLt)⟩)

/-- Everything an instruction that reaches a next state can have done: it completed, or it took a fault of R161's
table. -/
theorem exec_eq_next {i : Instr} {s t : State} (h : exec i s = .next t) :
    Completes s i t ∨ ∃ cause info, t = s.faulted cause info ∧ FaultRecord.legal ⟨cause, s.pc, info⟩ := by
  cases hbad : i.registerOperands.find? (fun r => 8 ≤ r.toNat) with
  | some b =>
    have hb : 8 ≤ b.toNat := by simpa using List.find?_some hbad
    have ht := Host.Outcome.next.inj (h.symm.trans (invalidRegisterFaultsFirst i s b hbad))
    exact .inr ⟨_, _, ht, legal_invalidRegisterIndex hb s.pc⟩
  | none =>
    have hok : ∀ r ∈ i.registerOperands, r.toNat < 8 := by simpa using hbad
    obtain ⟨u, hu, hc⟩ | ⟨a, ha, hu⟩ := exec_completes_or_out_of_range hok s
    · exact .inl (Host.Outcome.next.inj (hu.symm.trans h) ▸ hc)
    · exact .inr ⟨_, _, Host.Outcome.next.inj (h.symm.trans hu), legal_memoryOutOfRange ha s.pc⟩

/-! ### What an instruction that completes changes -/

namespace Completes

theorem fault_eq {s t : State} {i : Instr} (h : Completes s i t) : t.fault = s.fault := by
  cases h <;> rfl

/-- HLT halts, every other instruction leaves the run state (R28). -/
theorem run_eq {s t : State} {i : Instr} (h : Completes s i t) :
    t.run = if i = .hlt then .halted else s.run := by
  cases h <;> rfl

theorem run_ne_faulted {s t : State} {i : Instr} (h : Completes s i t) (hs : s.run ≠ .faulted) :
    t.run ≠ .faulted := by
  rw [h.run_eq]
  split
  · decide
  · exact hs

end Completes

/-! ### What one step can do -/

theorem running_of_stepWith_next {c : Config} {s t : State} (h : stepWith c s = .next t) :
    s.run = .running := by
  cases hrun : s.run with
  | running => rfl
  | halted => rw [stepWith_halted c s hrun] at h; cases h
  | faulted => rw [stepWith_faulted c s hrun] at h; cases h

/-- The three causes that can be raised (R161). -/
abbrev FaultCause.Raisable (cause : FaultCause) : Prop :=
  cause = .unknownOpcode ∨ cause = .memoryOutOfRange ∨ cause = .invalidRegisterIndex

theorem raisable_of_legal {f : FaultRecord} (h : f.legal) : f.cause.Raisable := by
  obtain ⟨h, -⟩ | ⟨h, -⟩ | ⟨h, -⟩ := h
  · exact .inl h
  · exact .inr (.inl h)
  · exact .inr (.inr h)

/-- The fetch raises one of the causes of R161's table; with its info, as long as pc is in 0..256. -/
theorem fetch_error_legal {c : Config} {s : State} {e : Raised} (h : fetch c s = .error e) :
    e.cause.Raisable ∧ (s.pc.toNat ≤ 256 → FaultRecord.legal ⟨e.cause, s.pc, e.info⟩) := by
  obtain ⟨hpc, rfl⟩ | ⟨b, rfl⟩ | rfl := fetch_eq_error h
  · exact ⟨.inr (.inl rfl), fun hle =>
      legal_memoryOutOfRange (.inr (congrArg Nat.cast (Nat.le_antisymm hle hpc))) s.pc⟩
  · exact ⟨.inl rfl, fun _ => legal_unknownOpcode b s.pc⟩
  · exact ⟨.inr (.inl rfl), fun _ => legal_memoryOutOfRange (.inr rfl) s.pc⟩

/-- Everything a step that reaches a next state can have done: the instruction fetched completed, or the state
before took a fault with a cause of R161's table. -/
theorem step_completes_or_faults {c : Config} {s t : State} (h : stepWith c s = .next t) :
    (∃ i, fetch c s = .ok i ∧ Completes s i t) ∨
    ∃ cause info, t = s.faulted cause info ∧ cause.Raisable ∧
      (s.pc.toNat ≤ 256 → FaultRecord.legal ⟨cause, s.pc, info⟩) := by
  obtain ⟨i, hi, he⟩ | ⟨e, he, rfl⟩ := stepWith_eq_next h
  · obtain hc | ⟨cause, info, ht, hl⟩ := exec_eq_next he
    · exact .inl ⟨i, hi, hc⟩
    · exact .inr ⟨cause, info, ht, raisable_of_legal hl, fun _ => hl⟩
  · exact .inr ⟨e.cause, e.info, rfl, fetch_error_legal he⟩

/-- A step that leads to Faulted took a fault: an instruction that completes does not leave a running machine
Faulted. -/
theorem eq_faulted_of_step {c : Config} {s t : State} (h : stepWith c s = .next t) (ht : t.run = .faulted) :
    ∃ cause info, t = s.faulted cause info ∧ cause.Raisable ∧
      (s.pc.toNat ≤ 256 → FaultRecord.legal ⟨cause, s.pc, info⟩) := by
  obtain ⟨i, -, hc⟩ | hf := step_completes_or_faults h
  · have hrun := running_of_stepWith_next h
    exact absurd ht (hc.run_ne_faulted (by simp [hrun]))
  · exact hf

/-! ### The obligations -/

/-- Settles O28: HLT by its meaning, every other instruction by what it leaves when it completes and when it
faults. -/
theorem runStateAndFaultFrame : Obligations.RunStateAndFaultFrame := by
  intro i s t h
  refine ⟨fun hi => by subst hi; cases h; rfl, ?_⟩
  obtain hc | ⟨cause, info, rfl, -⟩ := exec_eq_next h
  · exact ⟨fun hi => .inl (by rw [hc.run_eq, if_neg hi]), fun ht hs => absurd ht (hc.run_ne_faulted hs),
      fun _ => hc.fault_eq⟩
  · exact ⟨fun _ => .inr rfl, fun _ _ => rfl, fun ht => absurd rfl ht⟩

/-- Settles O29: the faulting step is fault entry on the state before it, and Faulted enables no step. -/
theorem faultEntryIsPrecise : Obligations.FaultEntryIsPrecise := by
  intro s t h ht
  obtain ⟨cause, info, rfl, -⟩ := eq_faulted_of_step h ht
  exact ⟨rfl, stepWith_faulted _ _ rfl⟩

/-- Settles O30: the record is the one of the fault taken, by the fetch or by the instruction. -/
theorem raisedCausesAreTheTables : Obligations.RaisedCausesAreTheTables := by
  refine ⟨fun s t hpc h ht => ?_, fun s t h ht => ?_⟩
  · obtain ⟨cause, info, rfl, -, hl⟩ := eq_faulted_of_step h ht
    exact hl hpc
  · obtain ⟨cause, info, rfl, hr, -⟩ := eq_faulted_of_step h ht
    exact hr

end Sys2Proof.Machine
end

section
/-! The program counter (R25, R72): an instruction that is fetched ends inside memory or right at its top, so the
nine bits never wrap. -/

namespace Sys2Proof.Machine

/-! ### The three completion kinds -/

/-- A sum up to 256 fits the nine bits of pc (decision D8). -/
theorem toNat_pc_add {p n : Pc} (h : p.toNat + n.toNat ≤ 256) : (p + n).toNat = p.toNat + n.toNat :=
  BitVec.toNat_add_of_lt (Nat.lt_of_le_of_lt h (by decide))

theorem toNat_jumpTarget_le (v : Byte) : (BitVec.ofNat 9 v.toNat).toNat ≤ 255 := by
  rw [toNat_jumpTarget]
  exact Nat.le_of_lt_succ v.isLt

namespace Completes

section
variable {s t : State} {i : Instr} (h : Completes s i t)
include h

/-- Completion kind Next: pc moves on by the instruction's length. -/
theorem toNat_pc_of_next (hlen : s.pc.toNat + i.mnemonic.length ≤ 256)
    (hm : i.mnemonic ∈ [.ldi, .prn, .add, .mul, .cmp, .push, .pop, .hlt]) :
    t.pc.toNat = s.pc.toNat + i.mnemonic.length := by
  cases h with
  | ldi | prn | add | mul | cmp | push | pop | hlt => exact toNat_pc_add hlen
  | jmp | jeq | jne | call | ret => simp [Instr.mnemonic] at hm

/-- Completion kind Jump: pc takes a byte (R131). -/
theorem toNat_pc_of_jump (hm : i.mnemonic ∈ [.jmp, .call, .ret]) : t.pc.toNat ≤ 255 := by
  cases h with
  | jmp | call | ret => exact toNat_jumpTarget_le _
  | ldi | prn | add | mul | cmp | push | pop | jeq | jne | hlt => simp [Instr.mnemonic] at hm

/-- A conditional jump takes a byte or falls through. -/
theorem toNat_pc_of_conditional (hlen : s.pc.toNat + i.mnemonic.length ≤ 256)
    (hm : i.mnemonic ∈ [.jeq, .jne]) : t.pc.toNat ≤ 255 ∨ t.pc.toNat = s.pc.toNat + 2 := by
  cases h with
  | jeq =>
    split
    · exact .inl (toNat_jumpTarget_le _)
    · exact .inr (toNat_pc_add hlen)
  | jne =>
    split
    · exact .inr (toNat_pc_add hlen)
    · exact .inl (toNat_jumpTarget_le _)
  | ldi | prn | add | mul | cmp | push | pop | jmp | call | ret | hlt => simp [Instr.mnemonic] at hm

/-- The legal values of pc are 0..256 (R25). -/
theorem pc_le (hlen : s.pc.toNat + i.mnemonic.length ≤ 256) : t.pc.toNat ≤ 256 := by
  cases hi : i.mnemonic with
  | ldi | prn | add | mul | cmp | push | pop | hlt =>
    exact (h.toNat_pc_of_next hlen (by simp [hi])).trans_le hlen
  | jmp | call | ret => exact (h.toNat_pc_of_jump (by simp [hi])).trans (by decide)
  | jeq | jne =>
    rw [hi] at hlen
    obtain hle | heq := h.toNat_pc_of_conditional (hi ▸ hlen) (by simp [hi])
    · exact hle.trans (by decide)
    · exact heq.trans_le hlen

end

end Completes

/-! ### The obligation -/

/-- Settles O32: a step that does not fault completes the instruction whose opcode stands at pc, and that
instruction's bytes end at 256 at the latest. -/
theorem pcNeverWraps : Obligations.PcNeverWraps := by
  refine ⟨fun s t m _ h ht hop => ?_, fun s hrun hpc => ?_⟩
  · obtain ⟨i, hi, hc⟩ | ⟨_, _, rfl, -⟩ := step_completes_or_faults h
    · obtain rfl : m = i.mnemonic :=
        defaultConfig_legal.injective _ _ (hop.trans (opcodeOf_fetch defaultConfig_legal hi).symm)
      have hlen := pc_add_length_le_of_fetch defaultConfig_legal hi
      exact ⟨hc.pc_le hlen, hc.toNat_pc_of_next hlen, hc.toNat_pc_of_jump, hc.toNat_pc_of_conditional hlen⟩
    · exact absurd rfl ht
  · have hstep := (fetchFaultsInOrder defaultConfig defaultConfig_legal s hrun).1 hpc.ge
    rwa [hpc] at hstep

end Sys2Proof.Machine
end

section
/-! The invariant (R25, R27, R31, R40): reset meets it, every step and every move of the host keep it. -/

namespace Sys2Proof.Machine

theorem exactlyOne_legal {f : Flags} (h : f.exactlyOne = true) : f.legal = true :=
  (Bool.and_eq_true_iff.mp h).1

/-! ### An instruction that completes -/

namespace Completes

section
variable {s t : State} {i : Instr} (h : Completes s i t)
include h

theorem mem_wf (hs : s.mem.wf) : t.mem.wf := by
  cases h with
  | push | call => exact Memory.wf_set _ _ _ (Nat.lt_of_le_of_lt (Nat.sub_le _ _) s.x[7].isLt) hs
  | ldi | prn | add | mul | cmp | pop | jmp | jeq | jne | ret | hlt => exact hs

theorem flags_legal (hs : s.flags.legal = true) : t.flags.legal = true := by
  cases h with
  | cmp => exact exactlyOne_legal (compareFlags_exactlyOne _ _)
  | ldi | prn | add | mul | push | pop | jmp | jeq | jne | call | ret | hlt => exact hs

/-- An instruction fetched from a running machine that meets the invariant completes in a state that meets it. -/
theorem inv (hs : s.Inv) (hrun : s.run = .running) (hlen : s.pc.toNat + i.mnemonic.length ≤ 256) : t.Inv :=
  have hs_run : s.run ≠ .faulted := by simp [hrun]
  { mem_wf := h.mem_wf hs.mem_wf
    pc_le := h.pc_le hlen
    flags_legal := h.flags_legal hs.flags_legal
    no_fault := fun _ => h.fault_eq.trans (hs.no_fault hs_run)
    fault_legal := fun ht => absurd ht (h.run_ne_faulted hs_run) }

end

end Completes

/-! ### Fault entry and loading -/

theorem State.Inv.faulted {s : State} (hs : s.Inv) {cause : FaultCause} {info : Int}
    (hl : FaultRecord.legal ⟨cause, s.pc, info⟩) : (s.faulted cause info).Inv where
  mem_wf := hs.mem_wf
  pc_le := hs.pc_le
  flags_legal := hs.flags_legal
  no_fault h := absurd rfl h
  fault_legal _ := ⟨hl, rfl⟩

theorem State.Inv.withMem {s : State} (hs : s.Inv) {m : Memory} (hm : m.wf) : { s with mem := m }.Inv where
  mem_wf := hm
  pc_le := hs.pc_le
  flags_legal := hs.flags_legal
  no_fault := hs.no_fault
  fault_legal := hs.fault_legal

/-! ### The host's moves -/

/-- A STEP move is a step of the core, and it marks the session as started (R178). -/
theorem hostStep_eq_some {h g : Session} (hg : hostStep h = some g) :
    g.started = true ∧ step h.core = .next g.core := by
  unfold hostStep at hg
  split at hg
  next t ht => cases hg; exact ⟨rfl, ht⟩
  next => cases hg
  next => cases hg

theorem hostLoad_not_started (a v : Byte) {h : Session} (hs : h.started = false) :
    hostLoad a v h = some { h with core := { h.core with mem := h.core.mem.set a.toNat v } } :=
  if_neg (Bool.eq_false_iff.mp hs)

theorem hostLoad_started (a v : Byte) {h : Session} (hs : h.started = true) : hostLoad a v h = none :=
  if_pos hs

theorem boot_short {program : List Byte} (h : program.length ≤ 256) : boot program =
    some { hostReset with core := { State.reset with mem := State.reset.mem.setBytes loadBase program } } :=
  if_pos h

theorem boot_long {program : List Byte} (h : 256 < program.length) : boot program = none :=
  if_neg (Nat.not_le.mpr h)

/-! ### The obligations -/

/-- Settles O45: the reset value of each field. -/
theorem resetMeetsInvariant : Obligations.ResetMeetsInvariant where
  mem_wf := ⟨.nil, nofun⟩
  pc_le := Nat.zero_le _
  flags_legal := rfl
  no_fault _ := rfl
  fault_legal := nofun

/-- Settles O46: the instruction fetched completes, or the state before takes a fault of R161's table. -/
theorem stepKeepsInvariant : Obligations.StepKeepsInvariant := by
  intro s t hs h
  obtain ⟨i, hi, hc⟩ | ⟨cause, info, rfl, -, hl⟩ := step_completes_or_faults h
  · exact hc.inv hs (running_of_stepWith_next h) (pc_add_length_le_of_fetch defaultConfig_legal hi)
  · exact hs.faulted (hl hs.pc_le)

/-- Settles O47: RESET by O45, STEP by O46, LOAD and boot because stored bytes keep memory's form. -/
theorem hostMovesKeepInvariant : Obligations.HostMovesKeepInvariant := by
  refine ⟨fun h g mv hs hg => ?_, fun program h hb => ?_⟩
  · cases mv with
    | reset => cases hg; exact resetMeetsInvariant
    | step => exact stepKeepsInvariant _ _ hs (hostStep_eq_some hg).2
    | load a v =>
      cases hst : h.started with
      | true => cases (hostLoad_started a v hst).symm.trans hg
      | false =>
        cases (hostLoad_not_started a v hst).symm.trans hg
        exact hs.withMem (Memory.wf_set _ _ _ a.isLt hs.mem_wf)
  · obtain hlen | hlen := Nat.lt_or_ge 256 program.length
    · cases (boot_long hlen).symm.trans hb
    · cases (boot_short hlen).symm.trans hb
      exact resetMeetsInvariant.withMem (Memory.wf_setBytes _ _ _ resetMeetsInvariant.mem_wf)

end Sys2Proof.Machine
end

section
/-! Reset, boot and the host's ports (R34, R54, R178 to R182). -/

namespace Sys2Proof.Machine

/-- Settles O41: the reset value of each field. -/
theorem resetState : Obligations.ResetState := by
  refine ⟨fun a => rfl, rfl, rfl, rfl, rfl, ?_, rfl, rfl, rfl, rfl, rfl⟩
  decide

/-- Settles O42: a cell of the booted engine by reading after the bytes are stored from address 0. -/
theorem bootLoadsProgram : Obligations.BootLoadsProgram := by
  refine ⟨fun program hlen => ⟨_, boot_short hlen, rfl, fun a => ?_, rfl⟩, fun program => boot_long⟩
  rw [Memory.get_setBytes]
  split
  · rfl
  next ha =>
    have hout : program.length ≤ a := by
      simp only [loadBase, memSize] at ha
      omega
    rw [List.getElem?_eq_none hout]
    rfl

/-- Settles O43: LOAD by the session bit, STEP by the core's step. -/
theorem hostLoadOnlyBeforeFirstStep : Obligations.HostLoadOnlyBeforeFirstStep :=
  ⟨fun _ a v hs => ⟨_, hostLoad_not_started a v hs, hs, Memory.get_set_self _ _ _,
      fun _ hb => Memory.get_set_ne _ _ _ _ hb.symm, rfl⟩,
    fun _ a v hs => hostLoad_started a v hs,
    fun _ _ hg => hostStep_eq_some hg⟩

/-- Settles O44: a started session has no LOAD, and a stopped core has no STEP. -/
theorem onlyResetLeavesAStop : Obligations.OnlyResetLeavesAStop := by
  refine ⟨fun h g mv hs hstop hg => ?_, fun h => ⟨_, rfl, rfl, rfl⟩⟩
  cases mv with
  | reset => rfl
  | load a v => cases (hostLoad_started a v hs).symm.trans hg
  | step => exact absurd (running_of_stepWith_next (hostStep_eq_some hg).2) hstop

end Sys2Proof.Machine
end

section
/-! Memory (R40, R41): the canonical form is determined by what it reads as, and an access is inside 0..255 or
raises. -/

namespace Sys2Proof.Machine

/-! ### The listed cells are the cells that differ from an unlisted one -/

theorem mem_of_lookupCell_ne {a : Nat} {cs : List Host.Cell} (h : lookupCell a cs ≠ Memory.unlisted) :
    (a, lookupCell a cs) ∈ cs := by
  induction cs with
  | nil => exact absurd rfl h
  | cons d rest ih =>
    by_cases hd : d.1 = a
    · subst hd
      simp [lookupCell]
    · rw [lookupCell, if_neg hd] at h ⊢
      exact .tail _ (ih h)

theorem lookupCell_of_mem {c : Host.Cell} {cs : List Host.Cell} (hs : cs.Pairwise (fun c d => c.1 < d.1))
    (hc : c ∈ cs) : lookupCell c.1 cs = c.2 := by
  induction hs with
  | nil => cases hc
  | cons hlt _ ih =>
    cases hc with
    | head => exact if_pos rfl
    | tail _ hc => rw [lookupCell, if_neg (hlt c hc).ne, ih hc]

theorem Memory.mem_cells_iff {m : Memory} (h : m.wf) (c : Host.Cell) :
    c ∈ m.cells ↔ m.get c.1 = c.2 ∧ c.2 ≠ Memory.unlisted := by
  constructor
  · exact fun hc => ⟨lookupCell_of_mem h.1 hc, (h.2 c hc).2⟩
  · rintro ⟨hget, hne⟩
    have hlisted : m.get c.1 ≠ Memory.unlisted := by rwa [hget]
    have hmem : (c.1, m.get c.1) ∈ m.cells := mem_of_lookupCell_ne hlisted
    rwa [hget] at hmem

/-! ### The obligations -/

/-- Settles O48: equal reads list the same cells, and a list with rising addresses is determined by its
elements. -/
theorem equalReadsEqualMemories : Obligations.EqualReadsEqualMemories := by
  intro m n hm hn hget
  have hcells : m.cells = n.cells := by
    refine hm.1.eq_of_mem_iff hn.1 fun c => ?_
    rw [Memory.mem_cells_iff hm, Memory.mem_cells_iff hn, hget]
  exact congrArg Memory.mk hcells

/-- Settles O49: inside 0..255 the access reaches its cell, outside it raises its own address. -/
theorem memoryAccessRange : Obligations.MemoryAccessRange := by
  refine ⟨fun s a v h0 h255 => ?_, fun s a v hout => ?_⟩
  · have hin : InMemory a := ⟨h0, Int.lt_add_one_of_le h255⟩
    exact ⟨memRead_ok s a hin, _, memWrite_ok s a v hin, Memory.get_set_self _ _ _,
      fun _ hb => Memory.get_set_ne _ _ _ _ hb.symm, rfl⟩
  · have hnot : ¬ InMemory a := by
      rintro ⟨h0, h256⟩
      simp only [memSize] at h256
      omega
    exact ⟨memRead_error s a hnot, memWrite_error s a v hnot⟩

end Sys2Proof.Machine
end

section
/-! The frames (R21, R42, R124): which registers and which cell an instruction can change, and that a stack
instruction's one cell is all of memory that its effect depends on. -/

namespace Sys2Proof.Machine

/-! ### Registers -/

theorem getElem_set_of_toNat_ne {rA : Byte} {r : Reg} (hA : rA.toNat < 8) (x : Vector Byte 8) (v : Byte)
    (h : ¬ rA.toNat = r) : (x.set rA.toNat v)[r] = x[r] :=
  Vector.getElem_set_ne _ _ h

theorem getElem_set_sp_of_ne {r : Reg} (x : Vector Byte 8) (v : Byte) (h : r ≠ spIndex) :
    (x.set 7 v)[r] = x[r] :=
  Vector.getElem_set_ne _ _ fun h7 => h (Fin.ext h7.symm)

/-- An instruction that completes writes its destination and SP at most. -/
theorem Completes.getElem_x {s t : State} {i : Instr} (h : Completes s i t) {r : Reg}
    (hr : ¬ writesReg i r) : t.x[r] = s.x[r] := by
  cases h with
  | ldi _ hA => exact getElem_set_of_toNat_ne hA _ _ hr
  | add hA | mul hA => exact getElem_set_of_toNat_ne hA _ _ hr
  | push | call | ret => exact getElem_set_sp_of_ne _ _ hr
  | pop hA =>
    obtain ⟨hdest, hsp⟩ := not_or.mp hr
    exact (getElem_set_sp_of_ne _ _ hsp).trans (getElem_set_of_toNat_ne hA _ _ hdest)
  | prn | cmp | jmp | jeq | jne | hlt => rfl

/-- Settles O24: by what an instruction that completes writes; a fault writes no register. -/
theorem registerFrame : Obligations.RegisterFrame := by
  intro i s t r h hr
  obtain hc | ⟨_, _, rfl, -⟩ := exec_eq_next h
  · exact hc.getElem_x hr
  · rfl

/-! ### Memory -/

/-- The cell below the stack pointer, where a checked decrement leads (R120). -/
theorem decSp_toNat_eq_some (s : State) (a : Nat) :
    (decSp s).toOption.map (fun s1 => (sp s1).toNat) = some a ↔ 1 ≤ s.x[7].toNat ∧ a = s.x[7].toNat - 1 := by
  obtain hsp | hsp := Nat.eq_zero_or_pos s.x[7].toNat
  · have h0 : sp s = 0 := BitVec.eq_of_toNat_eq hsp
    simp [decSp_error s h0, Except.toOption, hsp]
  · have hne : sp s ≠ 0 := fun h0 => by
      have : s.x[7].toNat = 0 := congrArg BitVec.toNat h0
      omega
    have haddr : (sp s - 1).toNat = s.x[7].toNat - 1 := toNat_sub_one hsp
    rw [decSp_ok s hne, Except.toOption, Option.map_some, sp_writeReg_sp, haddr, Option.some_inj, eq_comm]
    exact ⟨fun ha => ⟨hsp, ha⟩, And.right⟩

/-- PUSH and CALL alone store, at SP - 1, where the decrement does not raise (R121, R141). -/
theorem storeAddress_eq_some (i : Instr) (s : State) (a : Nat) : storeAddress i s = some a ↔
    (i.mnemonic = .push ∨ i.mnemonic = .call) ∧ 1 ≤ s.x[7].toNat ∧ a = s.x[7].toNat - 1 := by
  cases i with
  | push | call =>
    rw [storeAddress, decSp_toNat_eq_some]
    simp [Instr.mnemonic]
  | ldi | prn | add | mul | cmp | pop | jmp | jeq | jne | ret | hlt => simp [storeAddress, Instr.mnemonic]

/-- A cell that is not the one stored to reads as before. -/
theorem exec_mem_get {i : Instr} {s t : State} (h : exec i s = .next t) {b : Nat}
    (hb : storeAddress i s ≠ some b) : t.mem.get b = s.mem.get b := by
  obtain hc | ⟨_, _, rfl, -⟩ := exec_eq_next h
  · cases hc with
    | push hA hsp =>
      exact Memory.get_set_ne _ _ _ _ fun he =>
        hb ((storeAddress_eq_some _ s b).mpr ⟨.inl rfl, hsp, he.symm⟩)
    | call hA hpc hsp =>
      exact Memory.get_set_ne _ _ _ _ fun he =>
        hb ((storeAddress_eq_some _ s b).mpr ⟨.inr rfl, hsp, he.symm⟩)
    | ldi | prn | add | mul | cmp | pop | jmp | jeq | jne | ret | hlt => rfl
  · rfl

/-- Settles O25: every cell but the one stored to reads as before, and that one is SP - 1. -/
theorem memoryFrame : Obligations.MemoryFrame :=
  ⟨fun _ _ _ h hnone _ => exec_mem_get h (by simp [hnone]),
    fun _ _ _ _ h hsome _ hb => exec_mem_get h (by simpa [hsome] using hb.symm),
    fun i s a => (storeAddress_eq_some i s a).mp⟩

/-! ### Giving the state another memory -/

/-- The state with another memory. -/
def setMem (m : Memory) (s : State) : State := { s with mem := m }

section setMem
variable (m : Memory) (s : State)

@[simp] theorem setMem_mem : (setMem m s).mem = m := rfl
@[simp] theorem setMem_flags : (setMem m s).flags = s.flags := rfl
@[simp] theorem readReg_setMem (r : Reg) : readReg (setMem m s) r = readReg s r := rfl
@[simp] theorem sp_setMem : sp (setMem m s) = sp s := rfl
@[simp] theorem writeReg_setMem (r : Reg) (v : Byte) :
    writeReg r v (setMem m s) = setMem m (writeReg r v s) := rfl
@[simp] theorem setFlags_setMem (f : Flags) : setFlags f (setMem m s) = setMem m (setFlags f s) := rfl
@[simp] theorem advance_setMem (n : Nat) : advance n (setMem m s) = setMem m (advance n s) := rfl
@[simp] theorem jumpTo_setMem (v : Byte) : jumpTo v (setMem m s) = setMem m (jumpTo v s) := rfl
@[simp] theorem emit_setMem (v : Byte) : emit v (setMem m s) = setMem m (emit v s) := rfl

@[simp] theorem incSp_setMem : incSp (setMem m s) = setMem m <$> incSp s := by
  rw [incSp, incSp, sp_setMem, moveSp, moveSp]
  split <;> rfl

end setMem

/-- An effect that commutes with giving another memory is committed to the same state but for the memory, and so
is the fault it raises. -/
theorem settle_setMem {m : Memory} {s t : State} {r r' : Except Raised State} (h : settle s r = .next t)
    (hr : r' = setMem m <$> r) : settle (setMem m s) r' = .next (setMem m t) := by
  subst hr
  obtain rfl | ⟨e, rfl, rfl⟩ := (settle_eq_next s t r).mp h <;> rfl

/-- Under another memory every instruction but PUSH and CALL does the same and leaves that memory, as long as POP
and RET find the same byte at SP (R42, R124). -/
theorem exec_setMem {i : Instr} {s t : State} {m : Memory} (hi : i.mnemonic ∉ [.push, .call])
    (hget : i.mnemonic ∈ [.pop, .ret] → m.get (sp s).toNat = s.mem.get (sp s).toNat)
    (h : exec i s = .next t) : exec i (setMem m s) = .next (setMem m t) := by
  cases i with
  | push | call => simp [Instr.mnemonic] at hi
  | hlt => cases h; rfl
  | ldi | prn | add | mul | cmp | jmp => exact settle_setMem h (by simp)
  | jeq | jne => exact settle_setMem h (by cases hE : s.flags.e <;> simp [hE])
  | pop =>
    have hcell := hget (by simp [Instr.mnemonic])
    exact settle_setMem h (by simp [hcell])
  | ret =>
    have hcell := hget (by simp [Instr.mnemonic])
    unfold exec execRet at h ⊢
    exact settle_setMem h (by simp [hcell])

/-- Every instruction but PUSH and CALL leaves memory: giving it the memory it has changes nothing before the
instruction, so nothing after it. -/
theorem exec_mem {i : Instr} {s t : State} (hi : i.mnemonic ∉ [.push, .call]) (h : exec i s = .next t) :
    t.mem = s.mem := by
  have hset : exec i s = .next (setMem s.mem t) := exec_setMem hi (fun _ => rfl) h
  have ht : t = setMem s.mem t := Host.Outcome.next.inj (h.symm.trans hset)
  rw [ht, setMem_mem]

/-! ### PUSH and CALL -/

theorem sub_one_ne_self (v : Byte) : v - 1 ≠ v := by
  bv_omega

/-- A state whose SP went down took no fault. -/
theorem not_tookFault_of_sp {s t : State} (h : t.x[7] = s.x[7] - 1) : ¬ TookFault s t := by
  intro hf
  have hx : t.x = s.x := by rw [hf]; rfl
  rw [hx] at h
  exact sub_one_ne_self s.x[7] h.symm

/-- Whatever memory it runs with, the instruction takes one and the same fault, or it stores one and the same byte
right below the stack pointer and leaves one and the same state around it. -/
def StoresWithoutReading (i : Instr) (s : State) : Prop :=
  (∃ cause info, ∀ m, exec i (setMem m s) = .next ((setMem m s).faulted cause info)) ∨
  1 ≤ s.x[7].toNat ∧ ∃ v u, u.x[7] = s.x[7] - 1 ∧
    ∀ m, exec i (setMem m s) = .next (setMem (m.set (s.x[7].toNat - 1) v) u)

theorem push_storesWithoutReading (rA : Byte) (s : State) : StoresWithoutReading (.push rA) s := by
  obtain hA | hA := Nat.lt_or_ge rA.toNat 8
  · obtain hsp | hsp := Nat.eq_zero_or_pos s.x[7].toNat
    · exact .inl ⟨_, _, fun m => exec_push_error (setMem m s) hA hsp⟩
    · exact .inr ⟨hsp, if rA.toNat = 7 then s.x[7] - 1 else s.x[rA.toNat],
        { s with x := s.x.set 7 (s.x[7] - 1), pc := s.pc + 2 }, Vector.getElem_set_self _,
        fun m => exec_push_ok (setMem m s) hA hsp⟩
  · exact .inl ⟨_, _, fun m => settle_registerOperand_error hA (setMem m s) _⟩

theorem call_storesWithoutReading (rA : Byte) (s : State) : StoresWithoutReading (.call rA) s := by
  obtain hA | hA := Nat.lt_or_ge rA.toNat 8
  · obtain hpc | hpc := Nat.lt_or_ge 255 (s.pc.toNat + 2)
    · exact .inl ⟨_, _, fun m => exec_call_error_returnAddress (setMem m s) hA hpc⟩
    · obtain hsp | hsp := Nat.eq_zero_or_pos s.x[7].toNat
      · exact .inl ⟨_, _, fun m => exec_call_error_sp (setMem m s) hA hpc hsp⟩
      · exact .inr ⟨hsp, BitVec.ofNat 8 (s.pc.toNat + 2),
          { s with
            x := s.x.set 7 (s.x[7] - 1)
            pc := BitVec.ofNat 9 (if rA.toNat = 7 then s.x[7] - 1 else s.x[rA.toNat]).toNat },
          Vector.getElem_set_self _, fun m => exec_call_ok (setMem m s) hA hpc hsp⟩
  · exact .inl ⟨_, _, fun m => settle_registerOperand_error hA (setMem m s) _⟩

theorem storesWithoutReading {i : Instr} (hi : i.mnemonic ∈ [.push, .call]) (s : State) :
    StoresWithoutReading i s := by
  cases i with
  | push rA => exact push_storesWithoutReading rA s
  | call rA => exact call_storesWithoutReading rA s
  | ldi | prn | add | mul | cmp | pop | jmp | jeq | jne | ret | hlt => simp [Instr.mnemonic] at hi

/-- Settles O31: all but PUSH and CALL commute with giving another memory, POP and RET where the cell at SP is the
same; PUSH and CALL store one byte that no memory decides. -/
theorem dataAccessOnlyByStackInstructions : Obligations.DataAccessOnlyByStackInstructions := by
  refine ⟨fun i s t m hi h => ?_, fun i s t m hi hget h => ?_, fun i s t m hi h => ?_⟩
  · have hstore : i.mnemonic ∉ [.push, .call] := fun hm =>
      hi ((by decide : [Mnemonic.push, .call] ⊆ [.push, .pop, .call, .ret]) hm)
    have hread : i.mnemonic ∉ [.pop, .ret] := fun hm =>
      hi ((by decide : [Mnemonic.pop, .ret] ⊆ [.push, .pop, .call, .ret]) hm)
    exact ⟨exec_mem hstore h, exec_setMem hstore (fun hm => absurd hm hread) h⟩
  · have hstore : i.mnemonic ∉ [.push, .call] :=
      (by decide : ∀ n ∈ [Mnemonic.pop, .ret], n ∉ [.push, .call]) _ hi
    exact ⟨exec_mem hstore h, exec_setMem hstore (fun _ => hget) h⟩
  · obtain ⟨cause, info, hf⟩ | ⟨hsp, v, u, hu, hs⟩ := storesWithoutReading hi s
    · obtain rfl := Host.Outcome.next.inj (h.symm.trans (hf s.mem))
      exact ⟨fun _ => ⟨rfl, hf m⟩, fun hn => absurd rfl hn⟩
    · obtain rfl := Host.Outcome.next.inj (h.symm.trans (hs s.mem))
      refine ⟨fun ht => absurd ht (not_tookFault_of_sp hu), fun _ => ⟨s.x[7].toNat - 1, _, ?_, hs m, rfl, ?_⟩⟩
      · exact (storeAddress_eq_some i s _).mpr ⟨by simpa using hi, hsp, rfl⟩
      · exact ⟨(Memory.get_set_self _ _ _).trans (Memory.get_set_self _ _ _).symm,
          fun b hb => Memory.get_set_ne _ _ _ _ hb.symm, fun b hb => Memory.get_set_ne _ _ _ _ hb.symm⟩

end Sys2Proof.Machine
end

section
/-! Instructions one after the other: PUSH then POP (R123), a byte pushed in front of the next fetch (R52, R185), and
a JMP to itself (R189). -/

namespace Sys2Proof.Machine

/-! ### PUSH, then POP -/

/-- What a PUSH leaves on top of the stack: the byte read after the decrement (decision D23). -/
theorem exec_push_top {s : State} {rA : Byte} (hA : rA.toNat < 8) (hsp : 1 ≤ s.x[7].toNat) :
    ∃ t, exec (.push rA) s = .next t ∧ t.x = s.x.set 7 (s.x[7] - 1) ∧ t.x[7] = s.x[7] - 1 ∧
      t.mem.get t.x[7].toNat = (if rA.toNat = 7 then s.x[7] - 1 else s.x[rA.toNat]) ∧
      t.pc = s.pc + 2 ∧ t.run = s.run := by
  obtain ⟨-, hpush, -⟩ := pushStoresBelowStackPointer
  obtain ⟨t, ht, hx, htop, -, hpc, -, hrun, -⟩ := hpush s rA hA hsp
  have hx7 : t.x[7] = s.x[7] - 1 := by rw [hx, Vector.getElem_set_self]
  exact ⟨t, ht, hx, hx7, by rw [hx7, toNat_sub_one hsp, htop], hpc, hrun⟩

/-- POP over a byte stored below `p`, into a register other than SP: the increment undoes PUSH's decrement. -/
theorem exec_pop_of_stored {t : State} {rB p b : Byte} (hB : rB.toNat < 7) (hp : 1 ≤ p.toNat)
    (hsp : t.x[7] = p - 1) (htop : t.mem.get t.x[7].toNat = b) :
    exec (.pop rB) t = .next { t with x := (t.x.set rB.toNat b).set 7 p, pc := t.pc + 2 } := by
  have hle : t.x[7].toNat ≤ 254 := by
    rw [hsp, toNat_sub_one hp]
    omega
  rw [exec_pop_ok t _ (sp_writeReg_ne t _ hB) hle, htop, hsp, BitVec.sub_add_cancel]

/-- Moving SP away and back around the write of another register leaves that write alone. -/
theorem set_sp_set_set_sp {r : Nat} (hr : r < 7) (x : Vector Byte 8) (v w : Byte) :
    ((x.set 7 v).set r w).set 7 x[7] = x.set r w := by
  have h7 : (x.set r w)[7] = x[7] := Vector.getElem_set_ne _ _ hr.ne
  rw [Vector.set_comm _ _ hr.ne', Vector.set_set]
  simpa only [h7] using Vector.set_getElem_self (xs := x.set r w) (i := 7) (by decide)

/-- Settles O35: POP finds the byte PUSH stored at the SP that PUSH left. -/
theorem pushPopRestores : Obligations.PushPopRestores := by
  refine ⟨fun s rA rB hA hB hsp => ?_, fun s rA hA hsp hle => ?_⟩
  · obtain ⟨t, ht, hx, hx7, htop, -, hrun⟩ := exec_push_top hA hsp
    refine ⟨t, _, ht, exec_pop_of_stored hB hsp hx7 htop, hrun, ?_⟩
    simp only [hx]
    exact set_sp_set_set_sp hB s.x _ _
  · obtain ⟨t, ht, hx, -, htop, -, hrun⟩ := exec_push_top hA hsp
    refine ⟨t, _, ht, exec_pop_sp_ok t (htop ▸ hle), hrun, ?_⟩
    simp only [htop]
    rw [hx, Vector.set_set]

/-! ### A pushed byte is fetched -/

/-- Settles O38: the PUSH stores at the pc it advances to, so the next fetch reads the byte pushed. -/
theorem stackWriteSeenByNextFetch : Obligations.StackWriteSeenByNextFetch := by
  intro s rA hA hrun hbytes hsp
  have hlt := s.x[7].isLt
  have hsp1 : 1 ≤ s.x[7].toNat := by omega
  obtain ⟨t, ht, -, hx7, htop, hpc, htrun⟩ := exec_push_top hA hsp1
  have hpcn : t.pc.toNat = s.pc.toNat + 2 := by
    rw [hpc]
    exact toNat_pc_add (show s.pc.toNat + 2 ≤ 256 by omega)
  have haddr : t.x[7].toNat = t.pc.toNat := by
    rw [hx7, toNat_sub_one hsp1, hpcn]
    omega
  have hpc255 : t.pc.toNat ≤ 255 := by omega
  rw [haddr] at htop
  refine ⟨t, (stepRunsInstructionAtPc.2 s _ hrun hbytes).trans ht, fun v hv => ⟨fun hop => ?_, fun hop => ?_⟩⟩
  · have hstep := stepWith_hlt defaultConfig_legal (htrun.trans hrun) hpc255 (htop.trans (hv.symm.trans hop))
    exact ⟨_, hstep, rfl, (toNat_pc_add_one hpc255).trans (by rw [hpcn])⟩
  · rw [← htop] at hv
    subst hv
    exact stepWith_unknown (htrun.trans hrun) hpc255 hop

/-! ### A JMP to itself -/

/-- A jump to the address pc holds is no change. -/
theorem exec_jmp_self {s : State} {rA : Byte} (hA : rA.toNat < 8) (hself : s.x[rA.toNat].toNat = s.pc.toNat) :
    exec (.jmp rA) s = .next s := by
  rw [exec_jmp_ok s hA, hself, BitVec.ofNat_toNat, BitVec.setWidth_eq]

/-- Settles O40: one step leads back to the same state, so any number of steps does. -/
theorem selfJumpRunsForever : Obligations.SelfJumpRunsForever := by
  intro s rA hA hrun hbytes hself k
  have hstep : step s = .next s :=
    (stepRunsInstructionAtPc.2 s (.jmp rA) hrun hbytes).trans (exec_jmp_self hA hself)
  induction k with
  | zero => rfl
  | succ k ih => rw [core_run_succ k s s hstep, ih]

end Sys2Proof.Machine
end
